-- ==== Sys2Proof/Word.lean ====
section
/-! DEFINITION. The word types of the block: bytes, the 16-bit CRC register and 32-bit bus words (rule R8).
All values are unsigned (rule R9). -/

namespace Sys2Proof

/-- A byte of a packet, a buffer or the image. -/
abbrev Byte := BitVec 8

/-- The 16-bit CRC register (rule R26). -/
abbrev Half := BitVec 16

/-- A word of the host bus (rule R8). -/
abbrev Word := BitVec 32

end Sys2Proof
end

