-- ==== Sys2Proof/Config.lean ====
section
/-! DEFINITION. The implementation parameters of rule R7 and the free values of the model.

`P_CHUNK` and `P_IMG_CAP` are parameters of the block. The block shows them in the hard-wired registers CHUNK and
IMGCAP (rules R33, R34), so State holds them there and every statement quantifies over them; the two values below are
the reference device's, which `State.reset` takes (log 1). -/

namespace Sys2Proof.Config

/-- `PKT_LEN`, fixed (rules R7, R120). -/
abbrev pktLen : Nat := 65

/-- `PAY_CAP = PKT_LEN - PAY_OFF`, fixed (rule R7). -/
abbrev payCap : Nat := 56

/-- `CMD_OFF`, fixed (rule R7). -/
abbrev cmdOff : Nat := 1

/-- `SUB_OFF`, fixed (rule R7). -/
abbrev subOff : Nat := 2

/-- `HDR_OFF`, fixed (rule R7). -/
abbrev hdrOff : Nat := 3

/-- `CRC_OFF`, fixed (rule R7). -/
abbrev crcOff : Nat := 7

/-- `PAY_OFF`, fixed (rule R7). -/
abbrev payOff : Nat := 9

/-- `CRC_POLY`, fixed (rules R2, R7). -/
abbrev crcPoly : Half := 0x1021#16

/-- `CRC_INIT`, fixed (rules R2, R7). -/
abbrev crcInit : Half := 0xFFFF#16

/-- The reference value of `P_CHUNK` (rule R7). -/
abbrev refChunk : BitVec 8 := 56#8

/-- The reference value of `P_IMG_CAP` (rule R7). -/
abbrev refImgCap : BitVec 25 := 528#25

/-- `P_BASE`, the base address of the block on the host bus: an OPEN parameter (rules R7, R51; log 11).
A free value: it has no body. -/
opaque pBase : Nat

/-- The absolute host address of bus offset `off` (rule R51). -/
def absoluteAddress (off : Word) : Nat := pBase + off.toNat

/-- The byte that IMG address `addr` holds after reset number `n`, until it is written: a draw per byte and per reset
(rules R37, R200; log 2). A free value: it has no body. -/
opaque imgDraw (n : Nat) (addr : Nat) : Byte

end Sys2Proof.Config
end

