-- ==== Sys2Proof/Syntax.lean ====
section
/-! DEFINITION. The commands of the block: one constructor per row of spec/opcode_table.json (rules R83, R84). A
constructor carries the operand fields its command uses and no other (rules R82, R86): `a` is field A, `b` field B,
`h` the header flag H. -/

namespace Sys2Proof

inductive Instr where
  | nop
  | crcInit
  | crcByte (a : Byte)
  | crcPayload
  | crcPkt
  | pktClear
  | pktBuild (a b : Byte) (h : Bool)
  | pktSend
  | pktBuildSend (a b : Byte) (h : Bool)
  | seqTransmit
  | imgClear
deriving DecidableEq, Repr

end Sys2Proof
end

