-- ==== Sys2Proof/WellFormed.lean ====
section
/-! DEFINITION. What is well formed: a command word (rule R85), a command (rule R88) and the implementation parameters
(rule R7). -/

namespace Sys2Proof

/-- The legal OP values (rule R84). -/
def legalOps : List Nat := [0x00, 0x01, 0x02, 0x03, 0x04, 0x10, 0x11, 0x12, 0x13, 0x20, 0x21]

/-- A command word is legal iff its bits 7:0 are a legal OP value and its bits 31:25 are zero (rule R85). Written on
numbers, apart from the decoder, so that the two can be compared. -/
def wordWellFormed (w : Word) : Bool :=
  decide (w.toNat % 256 ∈ legalOps) && decide (w.toNat / 2 ^ 25 = 0)

/-- Every command is well formed: its operand fields are a byte, a byte and one bit by type, and every value of them is
legal (rules R82, R88, R124). -/
def Instr.wellFormed : Instr → Bool
  | .nop => true
  | .crcInit => true
  | .crcByte _ => true
  | .crcPayload => true
  | .crcPkt => true
  | .pktClear => true
  | .pktBuild _ _ _ => true
  | .pktSend => true
  | .pktBuildSend _ _ _ => true
  | .seqTransmit => true
  | .imgClear => true

/-- The parameters `P_CHUNK` and `P_IMG_CAP` of one device (rule R7). -/
structure Params where
  chunk : Nat
  imgCap : Nat
deriving DecidableEq, Repr

/-- `P_CHUNK` is legal: 1..56 (rule R7). -/
def Params.chunkLegal (p : Params) : Bool := decide (1 ≤ p.chunk) && decide (p.chunk ≤ Config.payCap)

/-- `P_IMG_CAP` is legal: a multiple of 4 in 4..2^24 (rule R7). -/
def Params.imgCapLegal (p : Params) : Bool :=
  decide (p.imgCap % 4 = 0) && decide (4 ≤ p.imgCap) && decide (p.imgCap ≤ 2 ^ 24)

/-- The parameters are legal (rule R7). -/
def Params.wellFormed (p : Params) : Bool := p.chunkLegal && p.imgCapLegal

end Sys2Proof
end

