-- ==== Sys2Proof/Decode.lean ====
section
/-! DEFINITION. The command word's fields, the decoder (rules R80 to R86) and the encoder (rules R80, R88). -/

namespace Sys2Proof

/-- Field OP, bits 7:0 (rule R80). -/
def opField (w : Word) : Byte := w.extractLsb' 0 8

/-- Field A, bits 15:8 (rule R80). -/
def aField (w : Word) : Byte := w.extractLsb' 8 8

/-- Field B, bits 23:16 (rule R80). -/
def bField (w : Word) : Byte := w.extractLsb' 16 8

/-- Field H, bit 24 (rule R80). -/
def hField (w : Word) : Bool := w.getLsbD 24

/-- Field RSV, bits 31:25 (rule R80). -/
def rsvField (w : Word) : BitVec 7 := w.extractLsb' 25 7

/-- Why a word is no command; either way it completes with ILLEGAL (rules R85, R87, R182). -/
inductive DecodeError where
  | rsvNonzero (rsv : BitVec 7)
  | reservedOp (op : Byte)
deriving DecidableEq, Repr

/-- The command an OP value names, with the operand fields that command uses (rule R83); fields marked `-` there are
dropped (rule R86). -/
def decodeOp (w : Word) : Except DecodeError Instr :=
  match (opField w).toNat with
  | 0x00 => .ok .nop
  | 0x01 => .ok .crcInit
  | 0x02 => .ok (.crcByte (aField w))
  | 0x03 => .ok .crcPayload
  | 0x04 => .ok .crcPkt
  | 0x10 => .ok .pktClear
  | 0x11 => .ok (.pktBuild (aField w) (bField w) (hField w))
  | 0x12 => .ok .pktSend
  | 0x13 => .ok (.pktBuildSend (aField w) (bField w) (hField w))
  | 0x20 => .ok .seqTransmit
  | 0x21 => .ok .imgClear
  | _ => .error (.reservedOp (opField w))

/-- The decoder, total on every 32-bit word (rule R85): RSV must be zero and OP must be a legal value. -/
def decode (w : Word) : Except DecodeError Instr :=
  if rsvField w = 0 then decodeOp w else .error (.rsvNonzero (rsvField w))

/-- `word = {RSV, H, B, A, OP}` with RSV zero (rule R80). -/
def commandWord (op a b : Byte) (h : Bool) : Word := 0#7 ++ BitVec.ofBool h ++ b ++ a ++ op

/-- The word the syntax of rule R88 stands for: the OP value of rule R83, the fields the command uses, and zero in every
field it does not use. -/
def encode : Instr → Word
  | .nop => commandWord 0x00 0 0 false
  | .crcInit => commandWord 0x01 0 0 false
  | .crcByte a => commandWord 0x02 a 0 false
  | .crcPayload => commandWord 0x03 0 0 false
  | .crcPkt => commandWord 0x04 0 0 false
  | .pktClear => commandWord 0x10 0 0 false
  | .pktBuild a b h => commandWord 0x11 a b h
  | .pktSend => commandWord 0x12 0 0 false
  | .pktBuildSend a b h => commandWord 0x13 a b h
  | .seqTransmit => commandWord 0x20 0 0 false
  | .imgClear => commandWord 0x21 0 0 false

/-- The command word that the table's first `nbits` bits of `w` make, the bits above them zero. -/
def tableWord (nbits w : Nat) : Word := BitVec.ofNat 32 (w % 2 ^ nbits)

/-- The command the decoder reads from a row's word, its bits numbered as spec/opcode_table.json numbers them: a command
word is written by one 32-bit bus write (rule R80), so the table's bit n is the word's bit n. -/
def decodeTableWord (nbits w : Nat) : Option Instr := (decode (tableWord nbits w)).toOption

end Sys2Proof
end

