-- ==== Sys2Proof/Machine/State.lean ====
section
/-! DEFINITION. The state of the block and of its environment, as plain data (rules R20 to R40), the reasons a step can
stop, and the state after reset (rules R22, R200).

STATUS.BUSY and IRQ are not stored (rules R24, R39): Flags.lean computes them. Reserved register bits read zero and
ignore writes (rule R58), so a register holds its defined bits only. -/

namespace Sys2Proof.Machine

/-- The error codes of STATUS.ERRCODE (rule R181). Codes 5..15 never occur (rule R24) and have no constructor. -/
inductive ErrCode where
  | none
  | length
  | illegal
  | busy
  | config
deriving DecidableEq, Repr

/-- The bits of IEN that exist (rule R25). -/
structure IntEnable where
  done : Bool
  err : Bool
  txdrop : Bool
deriving DecidableEq, Repr

/-- What follows the emission of an offered packet (rule R38): END (`final`, the command finishes) or MORE (`more`, the
sequencer goes on). -/
inductive AfterEmit where
  | final
  | more
deriving DecidableEq, Repr

/-- EPH, the engine phase (rule R38). -/
inductive Phase where
  | idle
  | decode
  | seq
  | emit (k : AfterEmit)
deriving DecidableEq, Repr

/-- The sink's outcome of an emission (rule R169). -/
inductive SinkOutcome where
  | delivered
  | dropped
deriving DecidableEq, Repr

/-- A packet or the packet buffer: always 65 bytes (rules R36, R120). -/
abbrev Packet := Vector Byte Config.pktLen

/-- The payload staging buffer PAY (rule R35). -/
abbrev Payload := Vector Byte Config.payCap

/-- An entry of the output log OUT (rules R168, R169). -/
structure Emission where
  packet : Packet
  outcome : SinkOutcome
deriving DecidableEq, Repr

/-- A host bus access, `BusRead(off, w)` or `BusWrite(off, w, v)` (rules R10, R51). The width is any number, so that an
access of a width the bus does not admit can be made; an 8-bit write stores bits 7:0 of `v` (log 8). -/
inductive HostAccess where
  | read (off : Word) (width : Nat)
  | write (off : Word) (width : Nat) (v : Word)
deriving DecidableEq, Repr

/-- One item of the host's program (rule R88), pseudo-instructions already expanded (rule R89). `wait` polls STATUS
until it reads BUSY = 0. -/
inductive HostOp where
  | access (a : HostAccess)
  | wait
deriving DecidableEq, Repr

/-- What a read returned to the host (rule R160). -/
structure ReadReply where
  off : Word
  width : Nat
  value : Word
deriving DecidableEq, Repr

/-- Which agent takes the next atomic step (rule R70). A turn of the sink is the sink taking the packet, with its
outcome (rule R169); a turn of `reset` is the reset input asserted (rule R200). -/
inductive Turn where
  | host
  | engine
  | sink (o : SinkOutcome)
  | reset
deriving DecidableEq, Repr

/-- The image memory, as the cells written since the last reset: addresses strictly rising. An address not listed has no
stated value (rule R37); what reading it gives is the free value `Config.imgDraw` (Ops.lean, log 2). -/
abbrev Memory := List Host.Cell

/-- The canonical form of the image memory: addresses strictly rising, so no address is listed twice. -/
abbrev Memory.wf (m : Memory) : Prop := m.Pairwise (fun x y => x.1 < y.1)

/-- The state of the block (rule R20) and of its environment (rules R70, R168). -/
@[ext]
structure State where
  /-- CMD as read back: the last accepted command word (rule R23). -/
  latch : Word
  /-- STATUS.DONE (rule R24). -/
  done : Bool
  /-- STATUS.ERR (rule R24). -/
  err : Bool
  /-- STATUS.TXDROP (rule R24). -/
  txdrop : Bool
  /-- STATUS.ERRCODE (rules R24, R181). -/
  errcode : ErrCode
  /-- IEN (rule R25). -/
  ien : IntEnable
  /-- CRC (rule R26). -/
  crc : Half
  /-- HDR (rule R27). -/
  hdr : Word
  /-- PLEN (rule R28). -/
  plen : Byte
  /-- IMG_LEN (rule R29). -/
  imgLen : BitVec 25
  /-- SEQ_CODES (rule R30). -/
  seqCodes : BitVec 24
  /-- SEQ_ADDR (rule R31). -/
  seqAddr : BitVec 25
  /-- PKT_COUNT (rule R32). -/
  pktCount : Word
  /-- CHUNK, hard-wired to `P_CHUNK` (rule R33). -/
  chunk : BitVec 8
  /-- IMGCAP, hard-wired to `P_IMG_CAP` (rule R34). -/
  imgCap : BitVec 25
  /-- PAY[0..55] (rule R35). -/
  pay : Payload
  /-- PKT[0..64] (rule R36). -/
  pkt : Packet
  /-- IMG[0..P_IMG_CAP-1] (rule R37). -/
  img : Memory
  /-- EPH (rule R38). -/
  eph : Phase
  /-- OUT, the environment's output log (rules R168, R169). -/
  out : List Emission
  /-- The model's own: how many resets there have been, the index of the draws of IMG (log 2). -/
  resets : Nat
  /-- The model's own: the turns to come, the next one first (rule R70; log 5). -/
  schedule : List Turn
  /-- The model's own: what is left of the host's program (rule R88; log 4). -/
  program : List HostOp
  /-- The model's own: what the host's reads returned, the first one first (rule R160; log 9). -/
  hostReads : List ReadReply
deriving DecidableEq, Repr

/-- Why a run faults. -/
inductive Fault where
  /-- BusError, the bus's answer to a host access the map does not admit (rules R51, R54, R57). Raised by a turn of the
  host only. The spec says that the host program's run faults; safe. -/
  | busError
deriving DecidableEq, Repr

/-- Why the model gives no meaning. -/
inductive Refusal where
  /-- The command has no meaning in the model yet. Raised by `exec` only; safe. Every command has its meaning, so
  nothing raises it now. -/
  | notModelled (mnemonic : String)
deriving DecidableEq, Repr

/-- The state after reset of the device with the given `P_CHUNK` and `P_IMG_CAP` (rules R22, R200): IMG_LEN takes
`P_IMG_CAP`, every other register and buffer its value of rule R22, no byte of IMG has a stated value; no program is
loaded and nothing has been emitted yet (log 9, log 10). Power-on is the same as reset (rule R200). -/
def State.resetWith (pChunk : BitVec 8) (pImgCap : BitVec 25) : State where
  latch := 0
  done := false
  err := false
  txdrop := false
  errcode := .none
  ien := ⟨false, false, false⟩
  crc := Config.crcInit
  hdr := 0
  plen := 0
  imgLen := pImgCap
  seqCodes := 0
  seqAddr := 0
  pktCount := 0
  chunk := pChunk
  imgCap := pImgCap
  pay := Vector.replicate Config.payCap 0
  pkt := Vector.replicate Config.pktLen 0
  img := []
  eph := .idle
  out := []
  resets := 0
  schedule := []
  program := []
  hostReads := []

/-- The state after reset of the reference device (rules R7, R22). -/
def State.reset : State := State.resetWith Config.refChunk Config.refImgCap

end Sys2Proof.Machine
end

