-- ==== Sys2Proof/Machine/Flags.lean ====
section
/-! DEFINITION. The STATUS flags, IEN and IRQ: how they read, how the host clears them, and how an error is recorded
(rules R24, R25, R39, R40, R185, R188). -/

namespace Sys2Proof.Machine

/-- STATUS.BUSY: 1 iff `EPH != IDLE`, derived and not stored (rules R24, R38). -/
def State.busy (s : State) : Bool := decide (s.eph ≠ .idle)

/-- The four bits of STATUS.ERRCODE (rule R181). -/
def ErrCode.bits : ErrCode → BitVec 4
  | .none => 0
  | .length => 1
  | .illegal => 2
  | .busy => 3
  | .config => 4

/-- STATUS as the host reads it: BUSY 0, DONE 1, ERR 2, TXDROP 3, ERRCODE 11:8, every other bit 0 (rule R24). -/
def State.statusWord (s : State) : Word :=
  0#20 ++ s.errcode.bits ++ 0#4 ++ BitVec.ofBool s.txdrop ++ BitVec.ofBool s.err ++ BitVec.ofBool s.done
    ++ BitVec.ofBool s.busy

/-- IEN as the host reads it: DONE_IE 1, ERR_IE 2, TXDROP_IE 3, every other bit 0 (rule R25). -/
def State.ienWord (s : State) : Word :=
  0#28 ++ BitVec.ofBool s.ien.txdrop ++ BitVec.ofBool s.ien.err ++ BitVec.ofBool s.ien.done ++ 0#1

/-- The level output IRQ: the OR of the enabled pending bits (rules R39, R188). -/
def State.irq (s : State) : Bool := (s.done && s.ien.done) || (s.err && s.ien.err) || (s.txdrop && s.ien.txdrop)

/-- A host write to STATUS: write one to clear, ERRCODE cleared with ERR (rule R24). It is the host's acknowledgement of
an interrupt source (rule R190). -/
def writeStatus (v : Word) (s : State) : State :=
  { s with
    done := s.done && !v.getLsbD 1
    err := s.err && !v.getLsbD 2
    txdrop := s.txdrop && !v.getLsbD 3
    errcode := if v.getLsbD 2 then .none else s.errcode }

/-- A host write to IEN stores the writable bits 1..3 (rules R25, R160). -/
def writeIen (v : Word) (s : State) : State :=
  { s with ien := ⟨v.getLsbD 1, v.getLsbD 2, v.getLsbD 3⟩ }

/-- Error recording, used by every error: `ERR <- 1; ERRCODE <- code`, the earlier code lost (rule R185). -/
def recordError (code : ErrCode) (s : State) : State := { s with err := true, errcode := code }

end Sys2Proof.Machine
end

