-- ==== Sys2Proof/Machine/Ops.lean ====
section
/-! DEFINITION. The shared operations: how a command ends, with and without an error (the block's whole exception
model, rules R163, R164, R180), the refusal of a host write (rule R184), byte order (rules R10, R55), the byte buffers
(rules R35, R36) and the image memory (rule R37). -/

namespace Sys2Proof.Machine

/-- `finish()`: `DONE <- 1; EPH <- IDLE`, nothing else (rule R163). -/
def finish (s : State) : State := { s with done := true, eph := .idle }

/-- `raise <Error>(code)` inside a command: the error is recorded, then the command ends as a completed one does, with no
other effect (rules R164, R185). -/
def raiseError (code : ErrCode) (s : State) : State := finish (recordError code s)

/-- The BUSY error of a refused host write: recorded with code 3 and nothing else; the command in progress goes on (rule
R184). -/
def refuseWrite (s : State) : State := recordError .busy s

/-- `le16(v)` (rule R10). -/
def le16 (v : Half) : List Byte := [v.extractLsb' 0 8, v.extractLsb' 8 8]

/-- `le32(v)` (rule R10). -/
def le32 (v : Word) : List Byte := [v.extractLsb' 0 8, v.extractLsb' 8 8, v.extractLsb' 16 8, v.extractLsb' 24 8]

/-- The word whose bits 7:0, 15:8, 23:16 and 31:24 are the four bytes from index `i` on (rule R55). -/
def wordAt (byteAt : Nat → Byte) (i : Nat) : Word := byteAt (i + 3) ++ byteAt (i + 2) ++ byteAt (i + 1) ++ byteAt i

/-- The number a byte sequence stands for, least significant byte first (rules R10, R55). -/
def leValue : List Byte → Nat
  | [] => 0
  | b :: bs => b.toNat + 256 * leValue bs

/-- The first `n` bytes of a number, least significant byte first (rules R10, R55). -/
def leBytes : Nat → Nat → List Byte
  | 0, _ => []
  | n + 1, v => BitVec.ofNat 8 v :: leBytes n (v / 256)

/-- Places bytes into a buffer from index `off` on; a byte past the end of the buffer is not placed. -/
def placeBytes {n : Nat} (buf : Vector Byte n) (off : Nat) : List Byte → Vector Byte n
  | [] => buf
  | b :: bs => placeBytes (buf.setIfInBounds off b) (off + 1) bs

/-- Byte `i` of a buffer, zero past its end: the PKT window reads 0x00 past PKT[64] (rule R58). -/
def byteOf {n : Nat} (buf : Vector Byte n) (i : Nat) : Byte := buf[i]?.getD 0

/-- What the image memory lists for an address, if the address has been written since the last reset. -/
def Memory.lookup : Memory → Nat → Option Byte
  | [], _ => none
  | (k, v) :: rest, a => if k = a then some v else Memory.lookup rest a

/-- Writes one byte, keeping the addresses strictly rising. -/
def Memory.write : Memory → Nat → Byte → Memory
  | [], a, b => [(a, b)]
  | (k, v) :: rest, a, b =>
    if a < k then (a, b) :: (k, v) :: rest
    else if a = k then (a, b) :: rest
    else (k, v) :: Memory.write rest a b

/-- Writes bytes at rising addresses from `a` on. -/
def Memory.writeBytes (m : Memory) (a : Nat) : List Byte → Memory
  | [] => m
  | b :: bs => Memory.writeBytes (m.write a b) (a + 1) bs

/-- The memory in which addresses 0 .. n-1 hold zero (rule R150). -/
def Memory.zeros (n : Nat) : Memory := (List.range n).map fun a => (a, 0#8)

/-- IMG[a]: the byte written there since the last reset, else the byte drawn for it at the last reset (rule R37; log 2). -/
def State.imgByte (s : State) (a : Nat) : Byte := (s.img.lookup a).getD (Config.imgDraw s.resets a)

/-- IMG[a .. a+n-1], in increasing address order (rule R9). -/
def State.imgBytes (s : State) (a n : Nat) : List Byte := (List.range n).map fun j => s.imgByte (a + j)

/-- `MemRead(a, n)` (rules R10, R55). -/
def memRead (s : State) (a n : Nat) : Nat := leValue (s.imgBytes a n)

/-- `MemWrite(a, n, v)` (rules R10, R55). -/
def memWrite (a n v : Nat) (s : State) : State := { s with img := s.img.writeBytes a (leBytes n v) }

end Sys2Proof.Machine
end

