-- ==== Sys2Proof/Machine/Operands.lean ====
section
/-! DEFINITION. The operands of the commands that are not fields of the word (rule R82): the payload with its capacity
check, the header, the protocol bytes of SEQ_CODES and the chunk of the image. -/

namespace Sys2Proof.Machine

/-- PAY[0..PLEN-1], or nothing where `PLEN > 56`: then the command using it raises LengthError (rules R28, R132,
R182). -/
def payloadOperand (s : State) : Option (List Byte) :=
  if s.plen.toNat ≤ Config.payCap then some (s.pay.toList.take s.plen.toNat) else none

/-- The header of a host-built packet: HDR taken whole when H = 1, absent when H = 0 (rule R125). -/
def headerOperand (h : Bool) (s : State) : Option Word := if h then some s.hdr else none

/-- SEQ_CODES bits 7:0, the LedDefine command byte (rule R30). -/
def State.ldCmd (s : State) : Byte := s.seqCodes.extractLsb' 0 8

/-- SEQ_CODES bits 15:8, the Set sub-command byte (rule R30). -/
def State.setSub (s : State) : Byte := s.seqCodes.extractLsb' 8 8

/-- SEQ_CODES bits 23:16, the Save sub-command byte (rule R30). -/
def State.saveSub (s : State) : Byte := s.seqCodes.extractLsb' 16 8

/-- `hdr_word(addr, len)`: the two fields combined by OR (rule R125). -/
def hdrWord (addr len : Nat) : Word :=
  (BitVec.ofNat 24 addr).setWidth 32 ||| ((BitVec.ofNat 8 len).setWidth 32 <<< 24)

/-- The length of the sequencer's next chunk, `min(P_CHUNK, S - a)` (rule R146). -/
def State.chunkLen (s : State) : Nat := min s.chunk.toNat (s.imgLen.toNat - s.seqAddr.toNat)

end Sys2Proof.Machine
end

