-- ==== Sys2Proof/Machine/Checksum.lean ====
section
/-! DEFINITION. The checksum engine: crc_step, checksum and the four CRC commands (rules R100 to R106). Each `exec`
definition is the command's DECODE step (rule R162). -/

namespace Sys2Proof.Machine

/-- One bit iteration: shift left by one, and XOR with the polynomial if the bit shifted out was 1 (rule R100). -/
def crcBit (c : Half) : Half := if c.getLsbD 15 then (c <<< 1) ^^^ Config.crcPoly else c <<< 1

/-- `n` bit iterations. -/
def crcBits : Nat → Half → Half
  | 0, c => c
  | n + 1, c => crcBits n (crcBit c)

/-- `crc_step(c, b)`: XOR the byte into the high byte of the register, then 8 bit iterations (rule R100). -/
def crcStep (c : Half) (b : Byte) : Half := crcBits 8 (c ^^^ (b.setWidth 16 <<< 8))

/-- `foldl crc_step c s` (rules R101, R105). -/
def crcFold (c : Half) (bytes : List Byte) : Half := bytes.foldl crcStep c

/-- `checksum(s)` (rule R101). -/
def checksum (bytes : List Byte) : Half := crcFold Config.crcInit bytes

/-- PKT[1..64] with the CRC field, bytes 7..8, read as zero (rules R106, R123). -/
def crcRegion (p : Packet) : List Byte :=
  ((placeBytes p Config.crcOff [0, 0]).toList).drop Config.cmdOff

/-- CRC_INIT (rule R103). -/
def execCrcInit (s : State) : Host.Outcome State Fault Refusal :=
  .next (finish { s with crc := Config.crcInit })

/-- CRC_BYTE (rule R104). -/
def execCrcByte (a : Byte) (s : State) : Host.Outcome State Fault Refusal :=
  .next (finish { s with crc := crcStep s.crc a })

/-- CRC_PAYLOAD (rule R105). -/
def execCrcPayload (s : State) : Host.Outcome State Fault Refusal :=
  match payloadOperand s with
  | none => .next (raiseError .length s)
  | some pay => .next (finish { s with crc := crcFold s.crc pay })

/-- CRC_PKT (rule R106). -/
def execCrcPkt (s : State) : Host.Outcome State Fault Refusal :=
  .next (finish { s with crc := checksum (crcRegion s.pkt) })

end Sys2Proof.Machine
end

