-- ==== Sys2Proof/Machine/PacketBuilder.lean ====
section
/-! DEFINITION. The packet builder: build_packet and the four PKT commands (rules R120 to R129). Each `exec` definition
is the command's DECODE step (rule R162); the EMIT step is in OutputPort.lean. -/

namespace Sys2Proof.Machine

/-- A packet of 65 zero bytes (rules R122, R126). -/
def zeroPacket : Packet := Vector.replicate Config.pktLen 0

/-- The packet before its checksum is written: command, sub-command, header if there is one, payload, everything else
zero (rules R121, R122). -/
def packetBody (cmd sub : Byte) (hdr : Option Word) (pay : List Byte) : Packet :=
  let p := placeBytes zeroPacket Config.cmdOff [cmd]
  let p := placeBytes p Config.subOff [sub]
  let p := match hdr with
    | some h => placeBytes p Config.hdrOff (le32 h)
    | none => p
  placeBytes p Config.payOff pay

/-- The checksum of packet bytes 1..64 as they stand (rule R122). -/
def packetChecksum (p : Packet) : Half := checksum (p.toList.drop Config.cmdOff)

/-- `build_packet(cmd, sub, hdr, pay)`: the packet with its little-endian checksum in place, and the checksum (rule
R122). Its callers give it at most 56 payload bytes (rule R132). -/
def buildPacket (cmd sub : Byte) (hdr : Option Word) (pay : List Byte) : Packet × Half :=
  let p := packetBody cmd sub hdr pay
  let c := packetChecksum p
  (placeBytes p Config.crcOff (le16 c), c)

/-- Writes a built packet into PKT and its checksum into CRC (rules R127, R129, R146, R147). -/
def storePacket (built : Packet × Half) (s : State) : State := { s with pkt := built.1, crc := built.2 }

/-- PKT_CLEAR (rule R126). -/
def execPktClear (s : State) : Host.Outcome State Fault Refusal :=
  .next (finish { s with pkt := zeroPacket })

/-- PKT_BUILD (rule R127). -/
def execPktBuild (a b : Byte) (h : Bool) (s : State) : Host.Outcome State Fault Refusal :=
  match payloadOperand s with
  | none => .next (raiseError .length s)
  | some pay => .next (finish (storePacket (buildPacket a b (headerOperand h s) pay) s))

/-- PKT_SEND, its DECODE step: offers PKT as it stands (rule R128). -/
def execPktSend (s : State) : Host.Outcome State Fault Refusal :=
  .next { s with eph := .emit .final }

/-- PKT_BUILD_SEND, its DECODE step: builds, then offers (rule R129). -/
def execPktBuildSend (a b : Byte) (h : Bool) (s : State) : Host.Outcome State Fault Refusal :=
  match payloadOperand s with
  | none => .next (raiseError .length s)
  | some pay => .next { storePacket (buildPacket a b (headerOperand h s) pay) s with eph := .emit .final }

end Sys2Proof.Machine
end

