-- ==== Sys2Proof/Machine/Sequencer.lean ====
section
/-! DEFINITION. The chunked image sequencer: SEQ_TRANSMIT's DECODE step, the two SEQ steps, and IMG_CLEAR (rules R145 to
R150). -/

namespace Sys2Proof.Machine

/-- SEQ_TRANSMIT, its DECODE step (rules R145, R183). -/
def execSeqTransmit (s : State) : Host.Outcome State Fault Refusal :=
  if s.imgCap.toNat < s.imgLen.toNat then .next (raiseError .config s)
  else .next { s with seqAddr := 0, eph := .seq }

/-- The LedDefine/Set packet of the chunk of `len` bytes at image address `a` (rules R125, R146). -/
def setPacket (s : State) (a len : Nat) : Packet × Half :=
  buildPacket s.ldCmd s.setSub (some (hdrWord a len)) (s.imgBytes a len)

/-- The LedDefine/Save packet: no header, no payload (rule R147). -/
def savePacket (s : State) : Packet × Half := buildPacket s.ldCmd s.saveSub none []

/-- The SEQ step that builds the next Set packet (rule R146). -/
def seqSetStep (s : State) : State :=
  let a := s.seqAddr.toNat
  { storePacket (setPacket s a s.chunkLen) s with
    seqAddr := BitVec.ofNat 25 (a + s.chunkLen)
    eph := .emit .more }

/-- The SEQ step that builds the Save packet (rule R147). -/
def seqSaveStep (s : State) : State := { storePacket (savePacket s) s with eph := .emit .final }

/-- The engine's step in phase SEQ (rules R145 to R147). -/
def seqStep (s : State) : State :=
  if s.seqAddr.toNat < s.imgLen.toNat then seqSetStep s else seqSaveStep s

/-- IMG_CLEAR: the whole capacity, whatever IMG_LEN (rule R150). -/
def execImgClear (s : State) : Host.Outcome State Fault Refusal :=
  .next (finish { s with img := Memory.zeros s.imgCap.toNat })

end Sys2Proof.Machine
end

