-- ==== Sys2Proof/Machine/Control.lean ====
section
/-! DEFINITION. Command control: acceptance of a command word (rule R161) and NOP (rule R165). -/

namespace Sys2Proof.Machine

/-- Acceptance of a command word by an idle engine (rule R161). -/
def acceptCommand (w : Word) (s : State) : State := { s with latch := w, done := false, eph := .decode }

/-- A host write of `w` to CMD: accepted when the engine is idle, else refused and lost (rules R161, R184). -/
def submitCommand (w : Word) (s : State) : State := if s.busy then refuseWrite s else acceptCommand w s

/-- NOP (rule R165). -/
def execNop (s : State) : Host.Outcome State Fault Refusal := .next (finish s)

end Sys2Proof.Machine
end

