-- ==== Sys2Proof/Machine/OutputPort.lean ====
section
/-! DEFINITION. The output port: the emission step (rules R168, R169). -/

namespace Sys2Proof.Machine

/-- The log entry, the count and the drop flag of an emission (rule R169). -/
def logEmission (o : SinkOutcome) (s : State) : State :=
  { s with
    out := s.out ++ [⟨s.pkt, o⟩]
    pktCount := s.pktCount + 1
    txdrop := s.txdrop || decide (o = .dropped) }

/-- `Emit(PKT)` in phase EMIT(k), when the sink takes the packet with outcome `o` (rule R169). -/
def emission (k : AfterEmit) (o : SinkOutcome) (s : State) : State :=
  match k with
  | .final => finish (logEmission o s)
  | .more => { logEmission o s with eph := .seq }

end Sys2Proof.Machine
end

