-- ==== Sys2Proof/Machine/HostBus.lean ====
section
/-! DEFINITION. The host bus: the offset map, which accesses it admits, and what reads and writes do (rules R50 to R61,
R160). -/

namespace Sys2Proof.Machine

/-- The twelve host-visible registers (rules R20, R52). -/
inductive Register where
  | cmd
  | status
  | ien
  | crc
  | hdr
  | plen
  | imgLen
  | seqCodes
  | seqAddr
  | pktCount
  | chunk
  | imgCap
deriving DecidableEq, Repr

/-- A place in one of the three buffer windows, by buffer index (rule R52). -/
inductive BufferPlace where
  | pay (i : Nat)
  | pkt (i : Nat)
  | img (i : Nat)
deriving DecidableEq, Repr

/-- What an admitted access reaches. -/
inductive BusTarget where
  | register (r : Register)
  | buffer (b : BufferPlace)
deriving DecidableEq, Repr

/-- The register at an offset (rule R52). -/
def registerAt : Nat → Option Register
  | 0x000 => some .cmd
  | 0x004 => some .status
  | 0x008 => some .ien
  | 0x00C => some .crc
  | 0x010 => some .hdr
  | 0x014 => some .plen
  | 0x018 => some .imgLen
  | 0x01C => some .seqCodes
  | 0x020 => some .seqAddr
  | 0x024 => some .pktCount
  | 0x028 => some .chunk
  | 0x02C => some .imgCap
  | _ => none

/-- The bus offset of IMG[0] (rule R52). -/
abbrev imgBase : Nat := 0x01000000

/-- The buffer place at an offset (rule R52): PAY at 0x040, PKT at 0x080 with the three padding bytes after PKT[64]
(rule R58), IMG at 0x01000000 with its capacity. -/
def bufferAt (cap off : Nat) : Option BufferPlace :=
  if 0x040 ≤ off ∧ off < 0x078 then some (.pay (off - 0x040))
  else if 0x080 ≤ off ∧ off < 0x0C4 then some (.pkt (off - 0x080))
  else if imgBase ≤ off ∧ off < imgBase + cap then some (.img (off - imgBase))
  else none

/-- What an access of `width` bits at `off` reaches; nothing where it is a BusError (rules R51 to R54, R57): an 8-bit
access reaches a buffer only, a 32-bit access is 4-aligned, no other width is admitted. -/
def busTarget (s : State) (off : Word) (width : Nat) : Option BusTarget :=
  if width = 8 then (bufferAt s.imgCap.toNat off.toNat).map .buffer
  else if width = 32 ∧ off.toNat % 4 = 0 then
    match registerAt off.toNat with
    | some r => some (.register r)
    | none => (bufferAt s.imgCap.toNat off.toNat).map .buffer
  else none

/-- A register as the host reads it, undefined bits 0 (rules R23 to R34, R58). -/
def readRegister (s : State) : Register → Word
  | .cmd => s.latch
  | .status => s.statusWord
  | .ien => s.ienWord
  | .crc => s.crc.setWidth 32
  | .hdr => s.hdr
  | .plen => s.plen.setWidth 32
  | .imgLen => s.imgLen.setWidth 32
  | .seqCodes => s.seqCodes.setWidth 32
  | .seqAddr => s.seqAddr.setWidth 32
  | .pktCount => s.pktCount
  | .chunk => s.chunk.setWidth 32
  | .imgCap => s.imgCap.setWidth 32

/-- The byte at a buffer place (rules R52, R58). -/
def readByte (s : State) : BufferPlace → Byte
  | .pay i => byteOf s.pay i
  | .pkt i => byteOf s.pkt i
  | .img i => s.imgByte i

/-- The four bytes from a buffer place on, little-endian (rule R55). -/
def readWord (s : State) : BufferPlace → Word
  | .pay i => wordAt (byteOf s.pay) i
  | .pkt i => wordAt (byteOf s.pkt) i
  | .img i => wordAt s.imgByte i

/-- What an admitted read returns; an 8-bit value is zero-extended (rule R160; log 8). -/
def readTarget (s : State) (width : Nat) : BusTarget → Word
  | .register r => readRegister s r
  | .buffer b => if width = 8 then (readByte s b).setWidth 32 else readWord s b

/-- `BusRead(off, w)`: the value, or nothing for a BusError (rules R57, R160). -/
def busRead (s : State) (off : Word) (width : Nat) : Option Word :=
  (busTarget s off width).map (readTarget s width)

/-- An operand write: refused while BUSY, else `store` (rules R59, R160, R184). -/
def operandWrite (store : State) (s : State) : State := if s.busy then refuseWrite s else store

/-- A host write to a register (rules R24, R25, R58, R59, R160, R161). -/
def writeRegister (v : Word) (s : State) : Register → State
  | .cmd => submitCommand v s
  | .status => writeStatus v s
  | .ien => writeIen v s
  | .crc => operandWrite { s with crc := v.setWidth 16 } s
  | .hdr => operandWrite { s with hdr := v } s
  | .plen => operandWrite { s with plen := v.setWidth 8 } s
  | .imgLen => operandWrite { s with imgLen := v.setWidth 25 } s
  | .seqCodes => operandWrite { s with seqCodes := v.setWidth 24 } s
  | .seqAddr => s
  | .pktCount => s
  | .chunk => s
  | .imgCap => s

/-- A host write of bytes to a buffer place; the PKT window ignores it (rules R55, R58, R59, R160). -/
def writeBuffer (bytes : List Byte) (s : State) : BufferPlace → State
  | .pay i => operandWrite { s with pay := placeBytes s.pay i bytes } s
  | .pkt _ => s
  | .img i => operandWrite { s with img := s.img.writeBytes i bytes } s

/-- The bytes a buffer write stores: one for an 8-bit write, else four in little-endian order (rules R55, R56). -/
def storedBytes (width : Nat) (v : Word) : List Byte := if width = 8 then [v.extractLsb' 0 8] else le32 v

/-- An admitted host write. -/
def writeTarget (width : Nat) (v : Word) (s : State) : BusTarget → State
  | .register r => writeRegister v s r
  | .buffer b => writeBuffer (storedBytes width v) s b

/-- `BusWrite(off, w, v)`: the state after it, or nothing for a BusError (rules R57, R160). -/
def busWrite (s : State) (off : Word) (width : Nat) (v : Word) : Option State :=
  (busTarget s off width).map (writeTarget width v s)

/-- Records what a read returned to the host (log 9). -/
def recordRead (off : Word) (width : Nat) (v : Word) (s : State) : State :=
  { s with hostReads := s.hostReads ++ [⟨off, width, v⟩] }

/-- One host access as a step (rules R57, R60, R61, R160). -/
def hostAccess (a : HostAccess) (s : State) : Host.Outcome State Fault Refusal :=
  match a with
  | .read off width =>
    match busRead s off width with
    | some v => .next (recordRead off width v s)
    | none => .fault .busError
  | .write off width v =>
    match busWrite s off width v with
    | some t => .next t
    | none => .fault .busError

end Sys2Proof.Machine
end

