-- ==== Sys2Proof/Machine/HostProgram.lean ====
section
/-! DEFINITION. Host programs: the syntax of rule R88, the pseudo-instructions of rule R89, and the host's step. -/

namespace Sys2Proof.Machine

/-- A line of a host program (rules R88, R89). -/
inductive HostLine where
  | wr32 (off v : Word)
  | wr8 (off : Word) (v : Byte)
  | rd32 (off : Word)
  | rd8 (off : Word)
  | command (i : Instr)
  | wait
  | clrst
  | setPay (i : Nat) (bytes : List Byte)
  | ping (c s : Byte)
  | seqSetup (ld set save : Byte) (n : Word)
deriving DecidableEq, Repr

/-- `WR32 off, v` (rule R88). -/
def wr32 (off v : Word) : HostOp := .access (.write off 32 v)

/-- `WR8 off, v` (rule R88). -/
def wr8 (off : Word) (v : Byte) : HostOp := .access (.write off 8 (v.setWidth 32))

/-- A command mnemonic stands for `WR32 0x000, word` (rule R88). -/
def submit (i : Instr) : HostOp := wr32 0x000 (encode i)

/-- One `WR8 0x040+i+j, bj` per byte (rule R89). DESIGN CHOICE, log 22: the spec does not say what SETPAY stands for where
`0x040+i+j` needs more than the 32 bits of an offset (rule R50); the model keeps the sum's low 32 bits. -/
def setPayOps (i : Nat) : List Byte → List HostOp
  | [] => []
  | b :: bs => wr8 (BitVec.ofNat 32 (0x040 + i)) b :: setPayOps (i + 1) bs

/-- The bus accesses and polls a line stands for (rules R88, R89). -/
def HostLine.expand : HostLine → List HostOp
  | .wr32 off v => [Machine.wr32 off v]
  | .wr8 off v => [Machine.wr8 off v]
  | .rd32 off => [.access (.read off 32)]
  | .rd8 off => [.access (.read off 8)]
  | .command i => [submit i]
  | .wait => [.wait]
  | .clrst => [Machine.wr32 0x004 0x0000000E]
  | .setPay i bytes => setPayOps i bytes
  | .ping c s => [Machine.wr32 0x014 0, submit (.pktBuildSend c s false), .wait]
  | .seqSetup ld set save n => [Machine.wr32 0x01C (0#8 ++ save ++ set ++ ld), Machine.wr32 0x018 n]

/-- A whole host program. -/
def assemble (lines : List HostLine) : List HostOp := lines.flatMap HostLine.expand

/-- One poll of `WAIT`: `RD32 0x004`; the host goes on to `rest` when bit 0 of the value is 0, else it polls again (rule
R89). -/
def pollStatus (rest : List HostOp) (s : State) : State :=
  let v := s.statusWord
  recordRead 0x004 32 v (if v.getLsbD 0 then s else { s with program := rest })

/-- The host's step: the next item of its program; a host whose program has ended does nothing (log 4, log 6). -/
def hostTurn (s : State) : Host.Outcome State Fault Refusal :=
  match s.program with
  | [] => .next s
  | .access a :: rest => hostAccess a { s with program := rest }
  | .wait :: rest => .next (pollStatus rest s)

end Sys2Proof.Machine
end

