-- ==== Sys2Proof/Machine/Dispatch.lean ====
section
/-! DEFINITION. One arm per command: the command's DECODE step (rules R83, R162). -/

namespace Sys2Proof.Machine

def exec (i : Instr) (s : State) : Host.Outcome State Fault Refusal :=
  match i with
  | .nop => Sys2Proof.Machine.execNop s
  | .crcInit => Sys2Proof.Machine.execCrcInit s
  | .crcByte a => Sys2Proof.Machine.execCrcByte a s
  | .crcPayload => Sys2Proof.Machine.execCrcPayload s
  | .crcPkt => Sys2Proof.Machine.execCrcPkt s
  | .pktClear => Sys2Proof.Machine.execPktClear s
  | .pktBuild a b h => Sys2Proof.Machine.execPktBuild a b h s
  | .pktSend => Sys2Proof.Machine.execPktSend s
  | .pktBuildSend a b h => Sys2Proof.Machine.execPktBuildSend a b h s
  | .seqTransmit => Sys2Proof.Machine.execSeqTransmit s
  | .imgClear => Sys2Proof.Machine.execImgClear s

end Sys2Proof.Machine
end

