-- ==== Sys2Proof/Machine/Engine.lean ====
section
/-! DEFINITION. The agents' steps and whose turn it is (rules R70, R162, R166, R168, R200). -/

namespace Sys2Proof.Machine

/-- The DECODE step: an illegal word ends with ILLEGAL, a legal one runs its command (rules R85, R162, R182). -/
def decodeStep (s : State) : Host.Outcome State Fault Refusal :=
  match decode s.latch with
  | .ok i => exec i s
  | .error _ => .next (raiseError .illegal s)

/-- The engine's turn: its step in DECODE and SEQ; in IDLE it has none, and in EMIT(k) it waits for the sink (rules R166,
R170; log 6). -/
def engineTurn (s : State) : Host.Outcome State Fault Refusal :=
  match s.eph with
  | .decode => decodeStep s
  | .seq => .next (seqStep s)
  | .idle => .next s
  | .emit _ => .next s

/-- The sink's turn: it takes the offered packet with outcome `o`; where none is offered there is nothing to take (rules
R168, R169; log 6). -/
def sinkTurn (o : SinkOutcome) (s : State) : State :=
  match s.eph with
  | .emit k => emission k o s
  | .idle => s
  | .decode => s
  | .seq => s

/-- The reset input asserted: every piece of the block's state takes its reset value, CHUNK and IMGCAP stay as they are
wired, and IMG is drawn again; the output log and the host are not the block's and stay (rules R200, R201; log 2, log
10). -/
def resetTurn (s : State) : State :=
  { State.resetWith s.chunk s.imgCap with
    out := s.out
    resets := s.resets + 1
    schedule := s.schedule
    program := s.program
    hostReads := s.hostReads }

/-- Phases in which an engine step is always enabled (rule R166). -/
def State.engineEnabled (s : State) : Bool := decide (s.eph = .decode ∨ s.eph = .seq)

/-- Whose turn it is: the schedule's next; when the schedule says nothing, the engine if it has a step, else the host
(log 5). -/
def State.nextTurn (s : State) : Turn :=
  match s.schedule with
  | t :: _ => t
  | [] => if s.engineEnabled then .engine else .host

/-- The state with the turn taken off the schedule. -/
def State.popTurn (s : State) : State := { s with schedule := s.schedule.tail }

/-- One atomic step of the agent whose turn it is (rule R70). -/
def takeTurn (t : Turn) (s : State) : Host.Outcome State Fault Refusal :=
  match t with
  | .host => hostTurn s
  | .engine => engineTurn s
  | .sink o => .next (sinkTurn o s)
  | .reset => .next (resetTurn s)

/-- The state in which the command word `w` awaits its DECODE step and the engine moves next (rules R23, R38, R162; log
17). -/
def placeCommand (w : Word) (s : State) : State :=
  { s with latch := w, eph := .decode, schedule := .engine :: s.schedule }

end Sys2Proof.Machine
end

