-- ==== Sys2Proof/Machine/Step.lean ====
section
/-! DEFINITION. One step of the machine: one atomic step of one agent (rule R70). -/

namespace Sys2Proof.Machine

/-- One step: the next turn is taken off the schedule and its agent moves. -/
def step (s : State) : Host.Outcome State Fault Refusal := takeTurn s.nextTurn s.popTurn

/-- The state whose very next step decodes and runs the command of the table's word `w` (log 17). -/
def State.withFetchWord (s : State) (nbits w : Nat) : State := placeCommand (tableWord nbits w) s

end Sys2Proof.Machine
end

