-- ==== Sys2Proof/Safety.lean ====
section
/-! DEFINITION. The terms claims are stated in: the invariant of the block, what a packet must look like at the output
port, the chunk plan of an image, and which accesses the bus map admits. They are written from the rules, apart from the
meanings they are compared with. -/

namespace Sys2Proof.Machine

/-- The device's parameters, as its hard-wired registers show them (rules R7, R33, R34). -/
def State.params (s : State) : Params := ⟨s.chunk.toNat, s.imgCap.toNat⟩

/-- LATCH holds the word of a command with the given property. -/
def State.latchIs (s : State) (p : Instr → Bool) : Bool :=
  match decode s.latch with
  | .ok i => p i
  | .error _ => false

/-- The commands that offer a packet on the output port (rules R128, R129, R145). -/
def offersPacket : Instr → Bool
  | .nop => false
  | .crcInit => false
  | .crcByte _ => false
  | .crcPayload => false
  | .crcPkt => false
  | .pktClear => false
  | .pktBuild _ _ _ => false
  | .pktSend => true
  | .pktBuildSend _ _ _ => true
  | .seqTransmit => true
  | .imgClear => false

/-- The commands that offer a packet they have built themselves: all but PKT_SEND, which sends PKT as it stands (rules
R128, R219). -/
def offersBuiltPacket (i : Instr) : Bool := offersPacket i && decide (i ≠ .pktSend)

/-- Packet bytes 1..6, two zeros, packet bytes 9..64: what the CRC covers (rule R123). -/
def coveredBytes (p : Packet) : List Byte := (p.toList.drop 1).take 6 ++ [0, 0] ++ p.toList.drop 9

/-- The packet's CRC field, bytes 7..8 little-endian, is the checksum of what it covers (rule R123). -/
abbrev crcValid (p : Packet) : Prop := p[8] ++ p[7] = checksum (coveredBytes p)

/-- The packet layout of rule R121 with the CRC of rule R123 and the zeros of rule R131, byte by byte. -/
structure PacketLayout (p : Packet) (cmd sub : Byte) (hdr : Option Word) (pay : List Byte) : Prop where
  reportId : p[0] = 0
  command : p[1] = cmd
  subCommand : p[2] = sub
  header : p[6] ++ p[5] ++ p[4] ++ p[3] = hdr.getD 0
  crc : crcValid p
  payload : ∀ i, i < 56 → p[9 + i]? = some (pay[i]?.getD 0)

/-- `K = ceil(S / C)` (rule R142). -/
def chunkCount (size chunk : Nat) : Nat := (size + chunk - 1) / chunk

/-- The chunk plan of an image of `size` bytes with chunk size `chunk` (rule R142). -/
def chunks (size chunk : Nat) : List (Nat × Nat) :=
  (List.range (chunkCount size chunk)).map fun k => (k * chunk, min chunk (size - k * chunk))

/-- The packets a completed SEQ_TRANSMIT offers, in order: the Set packets, then the Save packet (rule R149). -/
def transmitPackets (s : State) : List Packet :=
  (chunks s.imgLen.toNat s.chunk.toNat).map (fun c =>
    (buildPacket s.ldCmd s.setSub (some (hdrWord c.1 c.2)) (s.imgBytes c.1 c.2)).1) ++
  [(buildPacket s.ldCmd s.saveSub none []).1]

/-- The turns of a whole SEQ_TRANSMIT whose packets the sink takes with the given outcomes: DECODE, then a SEQ step and an
EMIT step per packet (rule R167). -/
def transmitTurns (outcomes : List SinkOutcome) : List Turn :=
  .engine :: outcomes.flatMap fun o => [.engine, .sink o]

/-- An offset of one of the buffer windows of a device whose image capacity is `cap` (rule R52). -/
def InBufferWindow (cap off : Nat) : Prop :=
  (0x040 ≤ off ∧ off ≤ 0x077) ∨ (0x080 ≤ off ∧ off ≤ 0x0C3) ∨ (0x01000000 ≤ off ∧ off < 0x01000000 + cap)

/-- The accesses the map admits (rules R51 to R54). -/
def Admitted (cap off width : Nat) : Prop :=
  (width = 8 ∧ InBufferWindow cap off) ∨ (width = 32 ∧ off % 4 = 0 ∧ (off < 0x030 ∨ InBufferWindow cap off))

/-- An admitted access to one of the places a write to which is refused while BUSY: CMD, CRC, HDR, PLEN, IMG_LEN,
SEQ_CODES, the PAY window and the IMG window (rules R52, R59). -/
def OperandPlace (cap off width : Nat) : Prop :=
  Admitted cap off width ∧
    (off = 0x000 ∨ (0x00C ≤ off ∧ off < 0x020) ∨ (0x040 ≤ off ∧ off ≤ 0x077) ∨ 0x01000000 ≤ off)

/-- The image memory reads the same at every address. -/
def SameImage (s t : State) : Prop := ∀ a, t.imgByte a = s.imgByte a

/-- The registers and the buffer that no command writes, and LATCH (rules R22, R71). -/
structure SameOperands (s t : State) : Prop where
  latch : t.latch = s.latch
  ien : t.ien = s.ien
  hdr : t.hdr = s.hdr
  plen : t.plen = s.plen
  imgLen : t.imgLen = s.imgLen
  seqCodes : t.seqCodes = s.seqCodes
  chunk : t.chunk = s.chunk
  imgCap : t.imgCap = s.imgCap
  pay : t.pay = s.pay

/-- Nothing has left the output port, and the environment has not moved. -/
structure SameEnvironment (s t : State) : Prop where
  out : t.out = s.out
  pktCount : t.pktCount = s.pktCount
  txdrop : t.txdrop = s.txdrop
  resets : t.resets = s.resets
  schedule : t.schedule = s.schedule
  program : t.program = s.program
  hostReads : t.hostReads = s.hostReads

/-- Every word of OP value `op` with RSV zero is the command `i w`, whatever the fields the command does not use; with RSV
not zero it is illegal (rules R83, R85, R86). -/
def OpMeans (op : Byte) (i : Word → Instr) : Prop :=
  ∀ w, opField w = op →
    (rsvField w = 0 → decode w = .ok (i w)) ∧ (rsvField w ≠ 0 → ∃ e, decode w = .error e)

/-- `n` steps of the machine, stopping at the first fault or refusal. -/
def run : Nat → State → Host.Outcome State Fault Refusal
  | 0, s => .next s
  | n + 1, s =>
    match step s with
    | .next t => run n t
    | .fault r => .fault r
    | .refused r => .refused r

/-- Steps of the machine, whosever turns they are, until the engine is idle; at most `n` of them. -/
def runToIdle : Nat → State → Host.Outcome State Fault Refusal
  | 0, s => .next s
  | n + 1, s =>
    if s.eph = .idle then .next s
    else
      match step s with
      | .next t => runToIdle n t
      | .fault r => .fault r
      | .refused r => .refused r

/-- The DECODE steps of several commands, one after another, each run when the one before it has ended. -/
def execAll : List Instr → State → Host.Outcome State Fault Refusal
  | [], s => .next s
  | i :: is, s =>
    match exec i s with
    | .next t => execAll is t
    | .fault r => .fault r
    | .refused r => .refused r

/-- The invariant of the block, which every step keeps. -/
structure State.Inv (s : State) : Prop where
  /-- The parameters are legal (rule R7). -/
  paramsLegal : s.params.wellFormed = true
  /-- The image memory is in canonical form. -/
  imgCanonical : Memory.wf s.img
  /-- The image memory lists addresses of the image space only (rule R50). -/
  imgInside : ∀ c ∈ s.img, c.1 < s.imgCap.toNat
  /-- PKT[0] is 0x00 (rule R36). -/
  reportIdZero : s.pkt[0] = 0
  /-- ERRCODE is NONE exactly when ERR is 0 (rules R24, R181). -/
  errHasCode : s.err = true ↔ s.errcode ≠ .none
  /-- DONE is 0 from acceptance to completion (rules R161, R163). -/
  busyNotDone : s.busy = true → s.done = false
  /-- While the sequencer has chunks to come, its operands are in range and SEQ_ADDR has not passed IMG_LEN (rules R145,
  R148). -/
  sequencing : s.eph = .seq ∨ s.eph = .emit .more →
    s.latchIs (fun i => decide (i = .seqTransmit)) = true ∧ s.imgLen.toNat ≤ s.imgCap.toNat ∧
      s.seqAddr.toNat ≤ s.imgLen.toNat
  /-- A packet is offered only for a command that offers one (rule R166). -/
  offering : s.eph = .emit .final → s.latchIs offersPacket = true
  /-- The last packet of a SEQ_TRANSMIT is its Save packet, offered when the whole image is packed (rules R147, R148). -/
  saveIsLast : s.eph = .emit .final → s.latchIs (fun i => decide (i = .seqTransmit)) = true →
    s.seqAddr = s.imgLen ∧ s.pkt = (buildPacket s.ldCmd s.saveSub none []).1
  /-- Every packet offered by a command that builds it has a valid CRC field (rules R123, R219). -/
  offeredCrcValid : ∀ k, s.eph = .emit k → s.latchIs offersBuiltPacket = true → crcValid s.pkt

end Sys2Proof.Machine
end

