-- ==== Sys2Proof/Certificates/Slice0/Obligations.lean ====
section
/-! DEFINITION. The statements for the provers. Each docstring names the rules of spec/ the statement rests on. -/

open Sys2Proof Sys2Proof.Machine

/-! Encoding -/

/-- Decode and encode agree, for every command and every value of its operands (rules R80, R83, R88). -/
def Obligations.DecodeInvertsEncode : Prop :=
  ∀ i : Instr, i.wellFormed = true → decode (encode i) = .ok i

/-- Every word is its five fields at their places, and a command word is made of the fields given (rule R80). -/
def Obligations.CommandWordIsItsFields : Prop :=
  (∀ w : Word, w.toNat = (rsvField w).toNat * 2 ^ 25 + (hField w).toNat * 2 ^ 24 + (bField w).toNat * 2 ^ 16 +
      (aField w).toNat * 2 ^ 8 + (opField w).toNat) ∧
  (∀ op a b h, rsvField (commandWord op a b h) = 0 ∧ hField (commandWord op a b h) = h ∧
      bField (commandWord op a b h) = b ∧ aField (commandWord op a b h) = a ∧ opField (commandWord op a b h) = op)

/-- A word is a command exactly when it is legal, and an accepted illegal word completes with ILLEGAL at its DECODE step
and has no other effect (rule R85). `takeTurn .engine` is one step of the engine. -/
def Obligations.LegalWordsDecodeOthersAreIllegal : Prop :=
  ∀ w : Word, ((∃ i, decode w = .ok i) ↔ wordWellFormed w = true) ∧
    ∀ s : State, s.latch = w → s.eph = .decode → wordWellFormed w = false →
      takeTurn .engine s = .next { s with err := true, errcode := .illegal, done := true, eph := .idle }

/-- Fields a command does not use are don't-care: words that agree on OP and on the fields their command uses are the
same command, H among them for every command but PKT_BUILD and PKT_BUILD_SEND; a command behaves identically whatever
word is in LATCH; and LATCH keeps the accepted word whole (rule R86). -/
def Obligations.UnusedFieldsAreIgnored : Prop :=
  (∀ w w' : Word, rsvField w = 0 → rsvField w' = 0 → opField w = opField w' →
      (opField w = 0x02 → aField w = aField w') →
      (opField w = 0x11 ∨ opField w = 0x13 → aField w = aField w' ∧ bField w = bField w' ∧ hField w = hField w') →
      decode w = decode w') ∧
  (∀ i s t w, exec i s = .next t → exec i { s with latch := w } = .next { t with latch := w }) ∧
  (∀ s w, s.eph = .idle → ∃ t, busWrite s 0x000 32 w = some t ∧ t.latch = w)

/-- The eight worked encodings: the words of NOP, CRC_BYTE 0x31, PKT_BUILD 0x44, 0x00, PKT_BUILD_SEND 0x11, 0x22, H and
SEQ_TRANSMIT, both ways; two illegal words; and CRC_INIT with its unused fields set (rule R90). -/
def Obligations.WorkedEncodings : Prop :=
  encode .nop = 0x00000000 ∧ decode 0x00000000 = .ok .nop ∧
  encode (.crcByte 0x31) = 0x00003102 ∧ decode 0x00003102 = .ok (.crcByte 0x31) ∧
  encode (.pktBuild 0x44 0x00 false) = 0x00004411 ∧ decode 0x00004411 = .ok (.pktBuild 0x44 0x00 false) ∧
  encode (.pktBuildSend 0x11 0x22 true) = 0x01221113 ∧ decode 0x01221113 = .ok (.pktBuildSend 0x11 0x22 true) ∧
  encode .seqTransmit = 0x00000020 ∧ decode 0x00000020 = .ok .seqTransmit ∧
  decode 0xFF00FF20 = .error (.rsvNonzero 0x7F) ∧
  decode 0x00000005 = .error (.reservedOp 0x05) ∧
  decode 0x01FFFF01 = .ok .crcInit

/-! One step -/

/-- A step is the step of the agent whose turn it is, the turn taken off the schedule; the turn is the schedule's next.
When it is the engine's turn in phase DECODE and LATCH holds a command, the step is that command's DECODE step (rule
R162; the schedule that says whose turn it is is the model's own, log 5). -/
def Obligations.StepRunsTheDecodedCommand : Prop :=
  (∀ s : State, step s = takeTurn s.nextTurn { s with schedule := s.schedule.tail }) ∧
  (∀ (s : State) (x : Turn) (xs : List Turn), s.schedule = x :: xs → s.nextTurn = x) ∧
  ∀ (s : State) (i : Instr), s.nextTurn = .engine → s.eph = .decode → decode s.latch = .ok i →
    step s = exec i { s with schedule := s.schedule.tail }

/-- Every step answers a next state, but for a host access the bus does not admit, which is a BusError (rules R57, R70).
That a turn with nothing enabled (the engine in IDLE or EMIT, the sink with no packet offered, a host whose program has
ended) answers a next state too, where rule R166 gives no step, is the model's choice, log 6. -/
def Obligations.OnlyABusErrorStopsTheMachine : Prop :=
  ∀ s : State, (∃ t, step s = .next t) ∨
    (step s = .fault .busError ∧ s.nextTurn = .host ∧
      ∃ a rest, s.program = .access a :: rest ∧
        match a with
        | .read off width => ¬Admitted s.imgCap.toNat off.toNat width
        | .write off width _ => ¬Admitted s.imgCap.toNat off.toNat width)

/-! The checksum engine -/

/-- crc_step by arithmetic: the byte is XORed into the high byte, then eight times the register is doubled modulo 2^16
and XORed with 0x1021 if its bit 15 was 1 (rule R100). -/
def Obligations.CrcStepIsEightShiftsWithThePolynomial : Prop :=
  ∀ (c : Half) (b : Byte),
    (crcStep c b).toNat =
      (fun n => (2 * n % 65536) ^^^ (if 32768 ≤ n then 0x1021 else 0))^[8] (c.toNat ^^^ (256 * b.toNat))

/-- The checksum is the fold of crc_step from 0xFFFF in sequence order, and the reference vector (rule R101). -/
def Obligations.ChecksumIsTheFoldFromAllOnes : Prop :=
  (∀ bytes : List Byte, checksum bytes = bytes.foldl crcStep 0xFFFF) ∧
  checksum [0x31, 0x32, 0x33, 0x34, 0x35, 0x36, 0x37, 0x38, 0x39] = 0x29B1

/-- A checksum can be computed in pieces by carrying the register; zero is a fixed point on zero bytes, and zero bytes
change the initial register (rule R102). -/
def Obligations.ChecksumChains : Prop :=
  checksum [] = 0xFFFF ∧
  (∀ x y : List Byte, checksum (x ++ y) = y.foldl crcStep (checksum x)) ∧
  (∀ x y : List Byte, ∀ s, s.crc = checksum x → s.plen.toNat = y.length → s.pay.toList.take y.length = y →
    y.length ≤ 56 → ∃ t, exec .crcPayload s = .next t ∧ t.crc = checksum (x ++ y)) ∧
  crcStep 0x0000 0x00 = 0x0000 ∧
  checksum [0x00] = 0xE1F0 ∧ checksum [0x00, 0x00] = 0x1D0F

/-- Two byte sequences of the same length that differ in exactly one byte have different checksums (a consequence of
rules R100 and R101). -/
def Obligations.ChecksumDetectsOneWrongByte : Prop :=
  ∀ (x y : List Byte) (a b : Byte), a ≠ b → checksum (x ++ a :: y) ≠ checksum (x ++ b :: y)

/-- CRC_INIT: CRC becomes 0xFFFF and the command finishes; nothing else changes (rule R103). -/
def Obligations.CrcInitResult : Prop :=
  OpMeans 0x01 (fun _ => .crcInit) ∧
  ∀ s : State, exec .crcInit s = .next { s with crc := 0xFFFF, done := true, eph := .idle }

/-- CRC_BYTE: CRC becomes crc_step(CRC, A) and the command finishes, with the rule's four worked values; CRC_INIT and
then CRC_BYTE for each byte of a sequence leaves its checksum in CRC (rule R104). -/
def Obligations.CrcByteResult : Prop :=
  OpMeans 0x02 (fun w => .crcByte (aField w)) ∧
  (∀ (a : Byte) (s : State),
    exec (.crcByte a) s = .next { s with crc := crcStep s.crc a, done := true, eph := .idle }) ∧
  crcStep 0x0000 0x00 = 0x0000 ∧ crcStep 0x8000 0x00 = 0x9188 ∧ crcStep 0xFFFF 0xFF = 0xFF00 ∧
  crcStep 0xFFFF 0x31 = 0xC782 ∧
  ∀ (bytes : List Byte) (s : State),
    execAll (.crcInit :: bytes.map .crcByte) s = .next { s with crc := checksum bytes, done := true, eph := .idle }

/-- CRC_PAYLOAD: the register is carried over PAY[0..PLEN-1]; a PLEN above 56 is a LENGTH error that leaves everything
but STATUS and the engine phase (rule R105). -/
def Obligations.CrcPayloadResult : Prop :=
  OpMeans 0x03 (fun _ => .crcPayload) ∧
  (∀ s : State, s.plen.toNat ≤ 56 →
    exec .crcPayload s = .next { s with
      crc := (s.pay.toList.take s.plen.toNat).foldl crcStep s.crc, done := true, eph := .idle }) ∧
  (∀ s : State, 56 < s.plen.toNat →
    exec .crcPayload s = .next { s with err := true, errcode := .length, done := true, eph := .idle })

/-- CRC_PKT: the checksum of PKT[1..64] with bytes 7..8 read as zero, whatever CRC held (rule R106). -/
def Obligations.CrcPktResult : Prop :=
  OpMeans 0x04 (fun _ => .crcPkt) ∧
  ∀ s : State, exec .crcPkt s = .next { s with
    crc := ((s.pkt.toList.drop 1).take 6 ++ [0, 0] ++ s.pkt.toList.drop 9).foldl crcStep 0xFFFF
    done := true, eph := .idle }

/-- CRC_PKT after a build gives the CRC that the build left, which is the packet's own CRC field (rules R106, R123). -/
def Obligations.CrcPktAfterBuildAgrees : Prop :=
  ∀ (s t u : State) (a b : Byte) (h : Bool), s.plen.toNat ≤ 56 →
    exec (.pktBuild a b h) s = .next t → exec .crcPkt t = .next u →
      u.crc = t.crc ∧ u.crc = u.pkt[8] ++ u.pkt[7]

/-- What NOP and the CRC commands leave unchanged: PKT, IMG, SEQ_ADDR, every operand register and PAY, TXDROP, PKT_COUNT
and the environment; ERR and ERRCODE but for CRC_PAYLOAD's LENGTH error; and CRC for NOP (rules R103 to R106, R165). -/
def Obligations.ChecksumCommandsFrame : Prop :=
  ∀ (i : Instr) (s t : State),
    (i = .nop ∨ i = .crcInit ∨ (∃ a, i = .crcByte a) ∨ i = .crcPayload ∨ i = .crcPkt) →
    exec i s = .next t →
      SameOperands s t ∧ SameEnvironment s t ∧ SameImage s t ∧ t.pkt = s.pkt ∧ t.seqAddr = s.seqAddr ∧
      (i = .nop → t.crc = s.crc) ∧
      (i ≠ .crcPayload ∨ s.plen.toNat ≤ 56 → t.err = s.err ∧ t.errcode = s.errcode)

/-! The packet builder -/

/-- PKT_CLEAR: every byte of PKT is 0x00, CRC and everything else as before (rule R126). -/
def Obligations.PktClearResult : Prop :=
  OpMeans 0x10 (fun _ => .pktClear) ∧
  ∀ s : State, ∃ t, exec .pktClear s = .next t ∧ (∀ i, i < 65 → t.pkt[i]? = some 0) ∧
    t = { s with pkt := t.pkt, done := true, eph := .idle }

/-- PKT_BUILD: the packet has the layout of rule R121 byte by byte, with HDR in bytes 3..6 exactly when H = 1, the first
PLEN bytes of PAY from byte 9 on and zeros after them; its CRC field covers bytes 1..64 as rule R123 says and CRC holds
the same value; nothing is emitted. A PLEN above 56 is a LENGTH error that builds nothing (rule R127). -/
def Obligations.PktBuildResult : Prop :=
  OpMeans 0x11 (fun w => .pktBuild (aField w) (bField w) (hField w)) ∧
  (∀ (s : State) (a b : Byte) (h : Bool), s.plen.toNat ≤ 56 →
    ∃ t, exec (.pktBuild a b h) s = .next t ∧
      PacketLayout t.pkt a b (if h then some s.hdr else none) (s.pay.toList.take s.plen.toNat) ∧
      t.crc = t.pkt[8] ++ t.pkt[7] ∧
      t = { s with pkt := t.pkt, crc := t.crc, done := true, eph := .idle }) ∧
  (∀ (s : State) (a b : Byte) (h : Bool), 56 < s.plen.toNat →
    exec (.pktBuild a b h) s = .next { s with err := true, errcode := .length, done := true, eph := .idle })

/-- PKT_SEND: the DECODE step offers PKT as it stands; when the sink takes it, the 65 bytes are logged with the sink's
outcome, PKT_COUNT increases, TXDROP is set if the packet is dropped, and the command finishes (rule R128). -/
def Obligations.PktSendResult : Prop :=
  OpMeans 0x12 (fun _ => .pktSend) ∧
  ∀ (s : State) (o : SinkOutcome), ∃ t, exec .pktSend s = .next t ∧ t = { s with eph := .emit .final } ∧
    takeTurn (.sink o) t = .next { s with
      out := s.out ++ [⟨s.pkt, o⟩], pktCount := s.pktCount + 1, txdrop := s.txdrop || decide (o = .dropped)
      done := true, eph := .idle }

/-- PKT_BUILD_SEND: builds as PKT_BUILD does, offers the packet, and finishes when the sink takes it. A PLEN above 56 is
a LENGTH error with nothing built and nothing emitted (rule R129). -/
def Obligations.PktBuildSendResult : Prop :=
  OpMeans 0x13 (fun w => .pktBuildSend (aField w) (bField w) (hField w)) ∧
  (∀ (s : State) (a b : Byte) (h : Bool) (o : SinkOutcome), s.plen.toNat ≤ 56 →
    ∃ t, exec (.pktBuildSend a b h) s = .next t ∧
      PacketLayout t.pkt a b (if h then some s.hdr else none) (s.pay.toList.take s.plen.toNat) ∧
      t.crc = t.pkt[8] ++ t.pkt[7] ∧
      t = { s with pkt := t.pkt, crc := t.crc, eph := .emit .final } ∧
      takeTurn (.sink o) t = .next { t with
        out := s.out ++ [⟨t.pkt, o⟩], pktCount := s.pktCount + 1, txdrop := s.txdrop || decide (o = .dropped)
        done := true, eph := .idle }) ∧
  (∀ (s : State) (a b : Byte) (h : Bool), 56 < s.plen.toNat →
    exec (.pktBuildSend a b h) s = .next { s with err := true, errcode := .length, done := true, eph := .idle })

/-- What the DECODE steps of the PKT commands leave unchanged: IMG, SEQ_ADDR, every operand register and PAY, TXDROP,
PKT_COUNT, OUT and the environment; CRC for PKT_CLEAR and PKT_SEND; PKT for PKT_SEND; ERR and ERRCODE but for the LENGTH
error (rules R126 to R129). -/
def Obligations.PacketCommandsFrame : Prop :=
  ∀ (i : Instr) (s t : State),
    (i = .pktClear ∨ i = .pktSend ∨ ∃ a b h, i = .pktBuild a b h ∨ i = .pktBuildSend a b h) →
    exec i s = .next t →
      SameOperands s t ∧ SameEnvironment s t ∧ SameImage s t ∧ t.seqAddr = s.seqAddr ∧
      (i = .pktClear ∨ i = .pktSend → t.crc = s.crc) ∧
      (i = .pktSend → t.pkt = s.pkt) ∧
      (i = .pktClear ∨ i = .pktSend ∨ s.plen.toNat ≤ 56 → t.err = s.err ∧ t.errcode = s.errcode)

/-! The sequencer -/

/-- The chunk plan: K = ceil(S / C) chunks at 0, C, 2C, ...; every chunk but the last has length C, the last S mod C or
C; none is empty; together they cover every byte exactly once, in order (rule R142). -/
def Obligations.ChunkPlanCoversTheImageOnce : Prop :=
  ∀ size chunk : Nat, 1 ≤ chunk →
    (∃ k, (chunks size chunk).length = k ∧ size ≤ k * chunk ∧ k * chunk < size + chunk ∧
      ∀ j, j < k → ∃ len, (chunks size chunk)[j]? = some (j * chunk, len) ∧ 0 < len ∧
        (j + 1 < k → len = chunk) ∧ (j + 1 = k → len = if size % chunk = 0 then chunk else size % chunk)) ∧
    (chunks size chunk).flatMap (fun c => (List.range c.2).map fun j => c.1 + j) = List.range size

/-- SEQ_TRANSMIT's DECODE step: an IMG_LEN above the capacity is a CONFIG error with no packet and SEQ_ADDR unchanged;
any other, 0 among them, starts the sequencer (rule R183, and the DECODE step of rule R145). -/
def Obligations.SeqTransmitStartsOrReportsConfig : Prop :=
  OpMeans 0x20 (fun _ => .seqTransmit) ∧
  (∀ s : State, s.imgLen.toNat ≤ s.imgCap.toNat →
    exec .seqTransmit s = .next { s with seqAddr := 0, eph := .seq }) ∧
  (∀ s : State, s.imgCap.toNat < s.imgLen.toNat →
    exec .seqTransmit s = .next { s with err := true, errcode := .config, done := true, eph := .idle })

/-- The SEQ step that builds a Set packet: the chunk starts at SEQ_ADDR and has min(P_CHUNK, S - a) bytes; the packet
has the layout of rule R121 with LDCMD, SETSUB, the header address + (length << 24) and the chunk's image bytes; CRC
holds its checksum; SEQ_ADDR advances by the length; the packet is offered with MORE (rule R146). `takeTurn .engine` is
one step of the engine. -/
def Obligations.SeqStepBuildsTheNextSetPacket : Prop :=
  ∀ s : State, s.params.chunkLegal = true → s.imgLen.toNat ≤ 2 ^ 24 → s.eph = .seq →
    s.seqAddr.toNat < s.imgLen.toNat →
    ∃ t len, takeTurn .engine s = .next t ∧ len = min s.chunk.toNat (s.imgLen.toNat - s.seqAddr.toNat) ∧ 1 ≤ len ∧ len ≤ 56 ∧
      PacketLayout t.pkt (s.seqCodes.extractLsb' 0 8) (s.seqCodes.extractLsb' 8 8)
        (some (BitVec.ofNat 32 (s.seqAddr.toNat + len * 2 ^ 24)))
        ((List.range len).map fun j => s.imgByte (s.seqAddr.toNat + j)) ∧
      t.crc = t.pkt[8] ++ t.pkt[7] ∧ t.seqAddr.toNat = s.seqAddr.toNat + len ∧
      t = { s with pkt := t.pkt, crc := t.crc, seqAddr := t.seqAddr, eph := .emit .more }

/-- The SEQ step that builds the Save packet: LDCMD, SAVESUB, no header, no payload; CRC holds its checksum; the packet
is offered with END (rule R147). -/
def Obligations.SeqStepBuildsTheSavePacket : Prop :=
  ∀ s : State, s.eph = .seq → s.imgLen.toNat ≤ s.seqAddr.toNat →
    ∃ t, takeTurn .engine s = .next t ∧
      PacketLayout t.pkt (s.seqCodes.extractLsb' 0 8) (s.seqCodes.extractLsb' 16 8) none [] ∧
      t.crc = t.pkt[8] ++ t.pkt[7] ∧
      t = { s with pkt := t.pkt, crc := t.crc, eph := .emit .final }

/-- A whole SEQ_TRANSMIT, in a run in which only the engine and the sink move and the sink takes every packet, with any
outcomes: after 2(K+1)+1 steps the output log has grown by exactly the Set packets in increasing address order and then
the Save packet, each with its outcome; none is sent again; SEQ_ADDR is IMG_LEN, CRC and PKT are the Save packet's,
PKT_COUNT has grown by K+1, TXDROP is set if any was dropped, and the command has finished. Everything else is as at
acceptance (rules R142, R144, R145, R149, R167). -/
def Obligations.TransmitEmitsTheWholeImageInOrder : Prop :=
  ∀ (s : State) (outcomes : List SinkOutcome) (rest : List Turn),
    s.params.wellFormed = true → s.imgLen.toNat ≤ s.imgCap.toNat → s.eph = .decode →
    decode s.latch = .ok .seqTransmit →
    outcomes.length = chunkCount s.imgLen.toNat s.chunk.toNat + 1 →
    s.schedule = transmitTurns outcomes ++ rest →
      run (2 * outcomes.length + 1) s = .next { s with
        schedule := rest
        seqAddr := s.imgLen
        pkt := (buildPacket s.ldCmd s.saveSub none []).1
        crc := (buildPacket s.ldCmd s.saveSub none []).2
        out := s.out ++ List.zipWith Emission.mk (transmitPackets s) outcomes
        pktCount := s.pktCount + BitVec.ofNat 32 outcomes.length
        txdrop := s.txdrop || outcomes.any (fun o => decide (o = .dropped))
        done := true
        eph := .idle }

/-- The packets a completed SEQ_TRANSMIT offers, however the steps of the host, the engine and the sink are interleaved
and whatever the sink's outcomes: the output log has grown by exactly the Set packets of the chunk plan and then the
Save packet, built from IMG, IMG_LEN and SEQ_CODES as at acceptance (rule R149). Every schedule without a reset is
quantified over. -/
def Obligations.CompletedTransmitOfferedExactlyThePlan : Prop :=
  ∀ (n : Nat) (s t : State),
    s.params.wellFormed = true → s.imgLen.toNat ≤ s.imgCap.toNat → s.eph = .decode →
    decode s.latch = .ok .seqTransmit → (∀ x ∈ s.schedule, x ≠ .reset) →
    runToIdle n s = .next t → t.eph = .idle →
      ∃ outcomes : List SinkOutcome, outcomes.length = chunkCount s.imgLen.toNat s.chunk.toNat + 1 ∧
        t.out = s.out ++ List.zipWith Emission.mk (transmitPackets s) outcomes ∧
        t.pktCount = s.pktCount + BitVec.ofNat 32 outcomes.length ∧
        t.seqAddr = s.imgLen ∧ t.pkt = (buildPacket s.ldCmd s.saveSub none []).1 ∧
        t.crc = (buildPacket s.ldCmd s.saveSub none []).2 ∧ t.done = true

/-- Image bytes at or above IMG_LEN have no influence on a SEQ step: two states that agree on every register and on
every image byte below IMG_LEN build the same packet (rule R62). -/
def Obligations.SeqStepReadsNoByteBeyondImgLen : Prop :=
  ∀ (s t : State) (m : Memory), s.nextTurn = .engine → s.eph = .seq →
    (∀ a, a < s.imgLen.toNat → State.imgByte { s with img := m } a = s.imgByte a) →
    step s = .next t → step { s with img := m } = .next { t with img := m }

/-- SEQ_ADDR is written by nothing but the start of a SEQ_TRANSMIT, which sets it to 0, the build of a Set packet, which
advances it, and reset (rules R31, R148). -/
def Obligations.OnlyTheSequencerMovesSeqAddr : Prop :=
  ∀ s t : State, s.Inv → step s = .next t → s.nextTurn ≠ .reset →
    t.seqAddr = s.seqAddr ∨
    (s.nextTurn = .engine ∧ s.eph = .decode ∧ decode s.latch = .ok .seqTransmit ∧ t.seqAddr = 0) ∨
    (s.nextTurn = .engine ∧ s.eph = .seq ∧
      t.seqAddr.toNat = s.seqAddr.toNat + min s.chunk.toNat (s.imgLen.toNat - s.seqAddr.toNat) ∧
      s.seqAddr.toNat < t.seqAddr.toNat ∧ t.seqAddr.toNat ≤ s.imgLen.toNat)

/-- IMG_CLEAR: every byte of the image capacity reads 0x00 and nothing else changes (rule R150). -/
def Obligations.ImgClearResult : Prop :=
  OpMeans 0x21 (fun _ => .imgClear) ∧
  ∀ s : State, ∃ t, exec .imgClear s = .next t ∧ (∀ a, a < s.imgCap.toNat → t.imgByte a = 0) ∧
    t = { s with img := t.img, done := true, eph := .idle }

/-- What the DECODE steps of SEQ_TRANSMIT and IMG_CLEAR leave unchanged: PKT, CRC, every operand register and PAY,
TXDROP, PKT_COUNT, OUT and the environment; SEQ_TRANSMIT writes no byte of IMG, IMG_CLEAR none outside the capacity, and
IMG_CLEAR leaves SEQ_ADDR, ERR and ERRCODE (rules R145, R150). -/
def Obligations.SequencerCommandsFrame : Prop :=
  ∀ (i : Instr) (s t : State), s.Inv → (i = .seqTransmit ∨ i = .imgClear) → exec i s = .next t →
    SameOperands s t ∧ SameEnvironment s t ∧ t.pkt = s.pkt ∧ t.crc = s.crc ∧
    (i = .seqTransmit → SameImage s t) ∧
    (i = .imgClear → t.seqAddr = s.seqAddr ∧ t.err = s.err ∧ t.errcode = s.errcode ∧
      ∀ a, s.imgCap.toNat ≤ a → t.imgByte a = s.imgByte a)

/-! Command control and the output port -/

/-- NOP: the command finishes; nothing else changes (rule R165). -/
def Obligations.NopResult : Prop :=
  OpMeans 0x00 (fun _ => .nop) ∧ ∀ s : State, exec .nop s = .next { s with done := true, eph := .idle }

/-- A host write to CMD: accepted when the engine is idle (LATCH, DONE cleared, phase DECODE), refused with the BUSY
error and lost otherwise (rule R161). -/
def Obligations.CommandIsAcceptedOrRefused : Prop :=
  ∀ (s : State) (w : Word),
    busWrite s 0x000 32 w = some (
      if s.eph = .idle then { s with latch := w, done := false, eph := .decode }
      else { s with err := true, errcode := .busy })

/-- What a command's DECODE step can end in, the cases excluding each other: LENGTH, exactly for CRC_PAYLOAD, PKT_BUILD and
PKT_BUILD_SEND with PLEN above 56; CONFIG, exactly for SEQ_TRANSMIT with IMG_LEN above the capacity; each recorded with DONE
and phase IDLE and no other effect. Else ERR and ERRCODE stay, and the command ends with DONE, or is one that offers a
packet and stays in progress: its ending is a later step, which `EmissionStep` states (rules R163, R164, R182, R183). -/
def Obligations.DecodeStepEndsTheCommandOrLeavesItInProgress : Prop :=
  ∀ (i : Instr) (s : State), ∃ t, exec i s = .next t ∧
    (if (i = .crcPayload ∨ ∃ a b h, i = .pktBuild a b h ∨ i = .pktBuildSend a b h) ∧ 56 < s.plen.toNat then
      t = { s with err := true, errcode := .length, done := true, eph := .idle }
    else if i = .seqTransmit ∧ s.imgCap.toNat < s.imgLen.toNat then
      t = { s with err := true, errcode := .config, done := true, eph := .idle }
    else
      t.err = s.err ∧ t.errcode = s.errcode ∧
        if offersPacket i = true then t.eph ≠ .idle ∧ t.done = s.done else t.eph = .idle ∧ t.done = true)

/-- In phase IDLE the engine has no step, and with no packet offered there is nothing for the sink to take (rule R166;
that such a turn leaves the state as it is, but for the turn itself, is the model's choice, log 6). -/
def Obligations.TurnsWithNothingEnabledDoNothing : Prop :=
  ∀ s : State,
    (s.nextTurn = .engine → (s.eph = .idle ∨ ∃ k, s.eph = .emit k) →
      step s = .next { s with schedule := s.schedule.tail }) ∧
    (∀ o, s.nextTurn = .sink o → (∀ k, s.eph ≠ .emit k) → step s = .next { s with schedule := s.schedule.tail })

/-- The emission step, for each outcome of the sink: the packet and the outcome are logged, PKT_COUNT increases, TXDROP
is set if the packet is dropped; then END finishes the command and MORE returns to phase SEQ (rule R169). `takeTurn
(.sink o)` is the sink taking the packet with outcome `o`. -/
def Obligations.EmissionStep : Prop :=
  ∀ (s : State) (o : SinkOutcome) (k : AfterEmit), s.eph = .emit k →
    takeTurn (.sink o) s = .next { s with
      out := s.out ++ [⟨s.pkt, o⟩]
      pktCount := s.pktCount + 1
      txdrop := s.txdrop || decide (o = .dropped)
      done := if k = .final then true else s.done
      eph := if k = .final then .idle else .seq }

/-- Nothing leaves the output port but the packet an engine in EMIT offers, when the sink takes it: at most one a step,
and PKT_COUNT increases by one with each and is changed by no other step but reset (rules R32, R166). -/
def Obligations.OnlyTheSinkTakesPackets : Prop :=
  ∀ s t : State, step s = .next t →
    (t.out = s.out ∧ (s.nextTurn ≠ .reset → t.pktCount = s.pktCount)) ∨
    (∃ o k, s.nextTurn = .sink o ∧ s.eph = .emit k ∧ t.out = s.out ++ [⟨s.pkt, o⟩] ∧ t.pktCount = s.pktCount + 1)

/-- A stall: as long as the sink takes nothing and reset is not asserted, the engine stays in EMIT(k), BUSY, with the
same packet offered and nothing emitted, however many steps the host and the engine take; and every command word written
is refused with the BUSY error (rule R170). -/
def Obligations.StalledEmissionHolds : Prop :=
  (∀ (n : Nat) (s t : State) (k : AfterEmit), s.eph = .emit k → (∀ x ∈ s.schedule, x = .host ∨ x = .engine) →
    run n s = .next t →
      t.eph = .emit k ∧ t.busy = true ∧ t.pkt = s.pkt ∧ t.out = s.out ∧ t.pktCount = s.pktCount ∧ t.latch = s.latch) ∧
  (∀ (s : State) (k : AfterEmit) (w : Word), s.eph = .emit k →
    busWrite s 0x000 32 w = some { s with err := true, errcode := .busy })

/-- Between acceptance and completion the operands hold: while BUSY no step but reset changes LATCH, HDR, PLEN, IMG_LEN,
SEQ_CODES or PAY; no step but reset and IMG_CLEAR's own DECODE step changes IMG; and CRC, which commands write, is changed
by no step of the host or the sink (rule R71). -/
def Obligations.OperandsHoldWhileBusy : Prop :=
  ∀ s t : State, s.eph ≠ .idle → s.nextTurn ≠ .reset → step s = .next t →
    t.latch = s.latch ∧ t.hdr = s.hdr ∧ t.plen = s.plen ∧ t.imgLen = s.imgLen ∧ t.seqCodes = s.seqCodes ∧
    t.pay = s.pay ∧
    (¬(s.nextTurn = .engine ∧ s.eph = .decode ∧ decode s.latch = .ok .imgClear) → SameImage s t) ∧
    (s.nextTurn ≠ .engine → t.crc = s.crc)

/-! The host bus -/

/-- The bus answers exactly the accesses of the map: any other access is a BusError (rules R52 to R54, R57). -/
def Obligations.BusErrorExactlyOffTheMap : Prop :=
  ∀ (s : State) (off : Word) (width : Nat) (v : Word) (rest : List HostOp), s.nextTurn = .host →
    (s.program = .access (.read off width) :: rest →
      (step s = .fault .busError ↔ ¬Admitted s.imgCap.toNat off.toNat width)) ∧
    (s.program = .access (.write off width v) :: rest →
      (step s = .fault .busError ↔ ¬Admitted s.imgCap.toNat off.toNat width))

/-- A read changes nothing of the block: the step takes the access off the host's program and records the value (rules
R60, R160; the host's program and the record are the model's own, logs 4 and 9). -/
def Obligations.ReadsHaveNoSideEffect : Prop :=
  ∀ (s : State) (off : Word) (width : Nat) (rest : List HostOp), s.nextTurn = .host →
    s.program = .access (.read off width) :: rest → Admitted s.imgCap.toNat off.toNat width →
    ∃ v, busRead s off width = some v ∧
      step s = .next { s with
        schedule := s.schedule.tail, program := rest, hostReads := s.hostReads ++ [⟨off, width, v⟩] }

/-- What eleven of the twelve registers read; `StatusReadsAndClears` says what STATUS reads (rules R23 to R34, R52). -/
def Obligations.RegistersRead : Prop :=
  ∀ s : State,
    busRead s 0x000 32 = some s.latch ∧
    (∃ w, busRead s 0x008 32 = some w ∧
      w.toNat = 2 * s.ien.done.toNat + 4 * s.ien.err.toNat + 8 * s.ien.txdrop.toNat) ∧
    busRead s 0x00C 32 = some (s.crc.setWidth 32) ∧
    busRead s 0x010 32 = some s.hdr ∧
    busRead s 0x014 32 = some (s.plen.setWidth 32) ∧
    busRead s 0x018 32 = some (s.imgLen.setWidth 32) ∧
    busRead s 0x01C 32 = some (s.seqCodes.setWidth 32) ∧
    busRead s 0x020 32 = some (s.seqAddr.setWidth 32) ∧
    busRead s 0x024 32 = some s.pktCount ∧
    busRead s 0x028 32 = some (s.chunk.setWidth 32) ∧
    busRead s 0x02C 32 = some (s.imgCap.setWidth 32)

/-- STATUS reads BUSY, DONE, ERR, TXDROP and ERRCODE at their bits and zero elsewhere; a write clears the fields whose
bit it has at 1, ERRCODE with ERR, and is never refused (rule R24). -/
def Obligations.StatusReadsAndClears : Prop :=
  ∀ s : State,
    (∃ w, busRead s 0x004 32 = some w ∧
      w.toNat = (decide (s.eph ≠ .idle)).toNat + 2 * s.done.toNat + 4 * s.err.toNat + 8 * s.txdrop.toNat +
        256 * (match s.errcode with
          | .none => 0
          | .length => 1
          | .illegal => 2
          | .busy => 3
          | .config => 4)) ∧
    ∀ v : Word, busWrite s 0x004 32 v = some { s with
      done := if v.getLsbD 1 then false else s.done
      txdrop := if v.getLsbD 3 then false else s.txdrop
      err := if v.getLsbD 2 then false else s.err
      errcode := if v.getLsbD 2 then .none else s.errcode }

/-- While idle, a register keeps the writable bits of what is written to it, reads them back and reads its reserved bits
as zero; IEN does so also while BUSY (rules R25 to R30, R58, R160). -/
def Obligations.RegistersKeepTheirWritableBits : Prop :=
  ∀ (s : State) (v : Word),
    (∃ t, busWrite s 0x008 32 v = some t ∧ busRead t 0x008 32 = some (v &&& 0x0000000E) ∧ t = { s with ien := t.ien }) ∧
    (s.eph = .idle →
      (∃ t, busWrite s 0x00C 32 v = some t ∧ busRead t 0x00C 32 = some (v &&& 0x0000FFFF) ∧ t = { s with crc := t.crc }) ∧
      (∃ t, busWrite s 0x010 32 v = some t ∧ busRead t 0x010 32 = some v ∧ t = { s with hdr := t.hdr }) ∧
      (∃ t, busWrite s 0x014 32 v = some t ∧ busRead t 0x014 32 = some (v &&& 0x000000FF) ∧
        t = { s with plen := t.plen }) ∧
      (∃ t, busWrite s 0x018 32 v = some t ∧ busRead t 0x018 32 = some (v &&& 0x01FFFFFF) ∧
        t = { s with imgLen := t.imgLen }) ∧
      (∃ t, busWrite s 0x01C 32 v = some t ∧ busRead t 0x01C 32 = some (v &&& 0x00FFFFFF) ∧
        t = { s with seqCodes := t.seqCodes }))

/-- Writes to the read-only registers and to the PKT window are ignored, without BusError and without any STATUS bit, also
while BUSY. The window reads PKT in every phase: an 8-bit read its byte, a 32-bit read its four bytes, the least significant
first; the three bytes past PKT[64] read 0x00 in both (rules R52, R55, R58; that an 8-bit read's value is zero in bits 31:8
is the model's choice, log 8). -/
def Obligations.ReadOnlyPlacesIgnoreWrites : Prop :=
  ∀ (s : State) (v : Word),
    (∀ off : Word, off ∈ [0x020, 0x024, 0x028, 0x02C] → busWrite s off 32 v = some s) ∧
    (∀ off : Word, 0x080 ≤ off.toNat → off.toNat ≤ 0x0C3 → busWrite s off 8 v = some s) ∧
    (∀ off : Word, 0x080 ≤ off.toNat → off.toNat ≤ 0x0C3 → off.toNat % 4 = 0 → busWrite s off 32 v = some s) ∧
    (∀ off : Word, 0x080 ≤ off.toNat → off.toNat ≤ 0x0C0 →
      busRead s off 8 = (s.pkt[off.toNat - 0x080]?).map (BitVec.setWidth 32)) ∧
    (∀ off : Word, 0x0C1 ≤ off.toNat → off.toNat ≤ 0x0C3 → busRead s off 8 = some 0) ∧
    (∀ off : Word, 0x080 ≤ off.toNat → off.toNat ≤ 0x0C3 → off.toNat % 4 = 0 →
      ∃ w, busRead s off 32 = some w ∧
        ∀ j, j < 4 → some (w.extractLsb' (8 * j) 8) =
          if off.toNat - 0x080 + j < 65 then s.pkt[off.toNat - 0x080 + j]? else some 0)

/-- A write to an operand place while BUSY is refused: it changes nothing but ERR and ERRCODE, which report BUSY, and
the command in progress goes on (rules R59, R184). -/
def Obligations.OperandWritesAreRefusedWhileBusy : Prop :=
  ∀ (s : State) (off : Word) (width : Nat) (v : Word), s.eph ≠ .idle → OperandPlace s.imgCap.toNat off.toNat width →
    busWrite s off width v = some { s with err := true, errcode := .busy }

/-- Byte lanes of the PAY window: while idle, a 32-bit write changes exactly its four bytes, least significant byte first,
and an 8-bit write exactly one. In every phase, BUSY among them, an 8-bit read returns its byte and a 32-bit read its four
bytes in the same lanes (rules R52, R55, R56, R59, R160; that an 8-bit write stores bits 7:0 of its value, and that an 8-bit
read's value is zero in bits 31:8, is the model's choice, log 8). -/
def Obligations.PayWindowByteLanes : Prop :=
  ∀ (s : State) (off : Word) (v : Word), 0x040 ≤ off.toNat → off.toNat ≤ 0x077 →
    (s.eph = .idle → ∃ t, busWrite s off 8 v = some t ∧ t = { s with pay := t.pay } ∧
      ∀ i, i < 56 → t.pay[i]? = if i = off.toNat - 0x040 then some (v.extractLsb' 0 8) else s.pay[i]?) ∧
    (s.eph = .idle → off.toNat % 4 = 0 → ∃ t, busWrite s off 32 v = some t ∧ t = { s with pay := t.pay } ∧
      busRead t off 32 = some v ∧
      ∀ i, i < 56 → t.pay[i]? =
        if off.toNat - 0x040 ≤ i ∧ i < off.toNat - 0x040 + 4 then
          some (v.extractLsb' (8 * (i - (off.toNat - 0x040))) 8)
        else s.pay[i]?) ∧
    busRead s off 8 = (s.pay[off.toNat - 0x040]?).map (BitVec.setWidth 32) ∧
    (off.toNat % 4 = 0 → ∃ w, busRead s off 32 = some w ∧
      ∀ j, j < 4 → some (w.extractLsb' (8 * j) 8) = s.pay[off.toNat - 0x040 + j]?)

/-- The image window: while idle, a write stores its byte or its four bytes at the image address off - 0x01000000, least
significant byte first, and leaves every other image byte; in every phase a 32-bit read is MemRead(a, 4) and an 8-bit read
the byte at a (rules R52, R55, R56, R160; that an 8-bit write stores bits 7:0 of its value, and that an 8-bit read's value
is zero in bits 31:8, is the model's choice, log 8). -/
def Obligations.ImageWindowByteLanes : Prop :=
  ∀ (s : State) (off : Word) (a : Nat) (v : Word), off.toNat = 0x01000000 + a → a < s.imgCap.toNat →
    (s.eph = .idle → ∃ t, busWrite s off 8 v = some t ∧ t = { s with img := t.img } ∧
      ∀ x, t.imgByte x = if x = a then v.extractLsb' 0 8 else s.imgByte x) ∧
    (s.eph = .idle → a % 4 = 0 → ∃ t, busWrite s off 32 v = some t ∧ t = { s with img := t.img } ∧
      busRead t off 32 = some v ∧
      ∀ x, t.imgByte x = if a ≤ x ∧ x < a + 4 then v.extractLsb' (8 * (x - a)) 8 else s.imgByte x) ∧
    (a % 4 = 0 → ∃ w, busRead s off 32 = some w ∧ w.toNat = memRead s a 4) ∧
    busRead s off 8 = some ((s.imgByte a).setWidth 32)

/-! The interrupt, the host's program and reset -/

/-- IRQ is 1 exactly when a STATUS bit and the IEN bit beside it, as the host reads them, are both 1 (rules R39,
R188). -/
def Obligations.IrqIsStatusUnderIen : Prop :=
  ∀ (s : State) (status ien : Word), busRead s 0x004 32 = some status → busRead s 0x008 32 = some ien →
    (s.irq = true ↔ status &&& ien ≠ 0)

/-- Writing 1 to a pending STATUS bit makes IRQ 0 in that step when no other enabled source is pending; acceptance of a
command removes a DONE interrupt (rule R190). -/
def Obligations.AcknowledgementDropsIrq : Prop :=
  ∀ s : State,
    ((s.err && s.ien.err) = false → (s.txdrop && s.ien.txdrop) = false →
      ∃ t, busWrite s 0x004 32 0x2 = some t ∧ t.irq = false) ∧
    ((s.done && s.ien.done) = false → (s.txdrop && s.ien.txdrop) = false →
      ∃ t, busWrite s 0x004 32 0x4 = some t ∧ t.irq = false) ∧
    ((s.done && s.ien.done) = false → (s.err && s.ien.err) = false →
      ∃ t, busWrite s 0x004 32 0x8 = some t ∧ t.irq = false) ∧
    (∀ w, s.eph = .idle → (s.err && s.ien.err) = false → (s.txdrop && s.ien.txdrop) = false →
      ∃ t, busWrite s 0x000 32 w = some t ∧ t.irq = false)

/-- WAIT polls STATUS and goes on exactly when it reads BUSY = 0; CLRST, PING, SEQ_SETUP and SETPAY stand for the writes of
rule R89 (that each poll is one turn of the host, recorded, is the model's, logs 9 and 16; that a SETPAY offset 0x040+i+j
above 32 bits keeps its low 32 bits is the model's choice, log 22). -/
def Obligations.PseudoInstructionsExpand : Prop :=
  (∀ (s : State) (rest : List HostOp), s.nextTurn = .host → s.program = .wait :: rest →
    step s = .next { s with
      schedule := s.schedule.tail
      program := if s.eph = .idle then rest else s.program
      hostReads := s.hostReads ++ [⟨0x004, 32, s.statusWord⟩] }) ∧
  HostLine.clrst.expand = [.access (.write 0x004 32 0x0000000E)] ∧
  (∀ c s, (HostLine.ping c s).expand =
    [.access (.write 0x014 32 0), .access (.write 0x000 32 (encode (.pktBuildSend c s false))), .wait]) ∧
  (∀ ld set save n, (HostLine.seqSetup ld set save n).expand =
    [.access (.write 0x01C 32 (((save.setWidth 32) <<< 16) ||| ((set.setWidth 32) <<< 8) ||| ld.setWidth 32)),
     .access (.write 0x018 32 n)]) ∧
  (∀ (i : Nat) (bytes : List Byte), (HostLine.setPay i bytes).expand.length = bytes.length) ∧
  (∀ (i : Nat) (bytes : List Byte) (j : Nat), j < bytes.length → ∃ b, bytes[j]? = some b ∧
    (HostLine.setPay i bytes).expand[j]? = some (.access (.write (BitVec.ofNat 32 (0x040 + i + j)) 8 (b.setWidth 32))))

/-- Reset: every register and buffer takes its value of rule R22, IMG_LEN that of the capacity, and a command in
progress is abandoned; `ImageIsUnspecifiedAfterReset` says what IMG holds; OUT keeps what the sink has taken (rules
R200, R201). The host's program, the schedule and the record of reads are not the block's and stay (the model's choice,
log 10). -/
def Obligations.ResetStep : Prop :=
  ∀ s : State, s.nextTurn = .reset → ∃ t, step s = .next t ∧
    t.latch = 0 ∧ t.done = false ∧ t.err = false ∧ t.txdrop = false ∧ t.errcode = .none ∧
    t.ien = ⟨false, false, false⟩ ∧ t.crc = 0xFFFF ∧ t.hdr = 0 ∧ t.plen = 0 ∧ t.imgLen = s.imgCap ∧ t.seqCodes = 0 ∧
    t.seqAddr = 0 ∧ t.pktCount = 0 ∧ t.chunk = s.chunk ∧ t.imgCap = s.imgCap ∧
    (∀ i, i < 56 → t.pay[i]? = some 0) ∧ (∀ i, i < 65 → t.pkt[i]? = some 0) ∧ t.eph = .idle ∧ t.irq = false ∧
    t.out = s.out ∧ t.program = s.program ∧ t.schedule = s.schedule.tail ∧ t.hostReads = s.hostReads

/-- After reset every byte of IMG is a fresh free value, the draw of its reset (rules R37, R200; that the draw is
indexed by a count of resets is the model's choice, log 2). -/
def Obligations.ImageIsUnspecifiedAfterReset : Prop :=
  ∀ s : State, s.nextTurn = .reset → ∃ t, step s = .next t ∧ ∀ a, t.imgByte a = Config.imgDraw (s.resets + 1) a

/-- CHUNK and IMGCAP are hard-wired: no step changes them (rules R33, R34). -/
def Obligations.HardwiredRegistersNeverChange : Prop :=
  ∀ s t : State, step s = .next t → t.chunk = s.chunk ∧ t.imgCap = s.imgCap

/-! The invariant -/

/-- The invariant holds at reset, for every device with legal parameters (rules R7, R22). -/
def Obligations.InvHoldsAtReset : Prop :=
  State.reset.Inv ∧
  ∀ (chunk : BitVec 8) (cap : BitVec 25), Params.wellFormed ⟨chunk.toNat, cap.toNat⟩ = true →
    (State.resetWith chunk cap).Inv

/-- Every step keeps the invariant: legal parameters, the image memory in canonical form within its capacity, PKT[0]
zero, ERRCODE tied to ERR, DONE 0 while BUSY, the sequencer's addresses in range, packets offered only by commands that
offer one, a valid CRC field in every packet a command has built and offers, and the Save packet last (rules R7, R24,
R36, R123, R147, R148, R161, R163, R166). -/
def Obligations.EveryStepKeepsInv : Prop :=
  ∀ s t : State, s.Inv → step s = .next t → t.Inv
end

