-- ==== Sys2Proof/Laws/State.lean ====
section
/-! SUPPORT. One lemma per field per named state update, true by rfl, so that no later proof unfolds a record update. -/

namespace Sys2Proof.Machine

variable (s : State)

/-! `finish()` changes DONE and EPH (rule R163). -/

@[simp] theorem finish_latch : (finish s).latch = s.latch := rfl
@[simp] theorem finish_done : (finish s).done = true := rfl
@[simp] theorem finish_err : (finish s).err = s.err := rfl
@[simp] theorem finish_txdrop : (finish s).txdrop = s.txdrop := rfl
@[simp] theorem finish_errcode : (finish s).errcode = s.errcode := rfl
@[simp] theorem finish_ien : (finish s).ien = s.ien := rfl
@[simp] theorem finish_crc : (finish s).crc = s.crc := rfl
@[simp] theorem finish_hdr : (finish s).hdr = s.hdr := rfl
@[simp] theorem finish_plen : (finish s).plen = s.plen := rfl
@[simp] theorem finish_imgLen : (finish s).imgLen = s.imgLen := rfl
@[simp] theorem finish_seqCodes : (finish s).seqCodes = s.seqCodes := rfl
@[simp] theorem finish_seqAddr : (finish s).seqAddr = s.seqAddr := rfl
@[simp] theorem finish_pktCount : (finish s).pktCount = s.pktCount := rfl
@[simp] theorem finish_chunk : (finish s).chunk = s.chunk := rfl
@[simp] theorem finish_imgCap : (finish s).imgCap = s.imgCap := rfl
@[simp] theorem finish_pay : (finish s).pay = s.pay := rfl
@[simp] theorem finish_pkt : (finish s).pkt = s.pkt := rfl
@[simp] theorem finish_img : (finish s).img = s.img := rfl
@[simp] theorem finish_eph : (finish s).eph = .idle := rfl
@[simp] theorem finish_out : (finish s).out = s.out := rfl
@[simp] theorem finish_resets : (finish s).resets = s.resets := rfl
@[simp] theorem finish_schedule : (finish s).schedule = s.schedule := rfl
@[simp] theorem finish_program : (finish s).program = s.program := rfl
@[simp] theorem finish_hostReads : (finish s).hostReads = s.hostReads := rfl

/-! Recording an error changes ERR and ERRCODE (rule R185). -/

@[simp] theorem recordError_latch (code : ErrCode) : (recordError code s).latch = s.latch := rfl
@[simp] theorem recordError_done (code : ErrCode) : (recordError code s).done = s.done := rfl
@[simp] theorem recordError_err (code : ErrCode) : (recordError code s).err = true := rfl
@[simp] theorem recordError_txdrop (code : ErrCode) : (recordError code s).txdrop = s.txdrop := rfl
@[simp] theorem recordError_errcode (code : ErrCode) : (recordError code s).errcode = code := rfl
@[simp] theorem recordError_ien (code : ErrCode) : (recordError code s).ien = s.ien := rfl
@[simp] theorem recordError_crc (code : ErrCode) : (recordError code s).crc = s.crc := rfl
@[simp] theorem recordError_hdr (code : ErrCode) : (recordError code s).hdr = s.hdr := rfl
@[simp] theorem recordError_plen (code : ErrCode) : (recordError code s).plen = s.plen := rfl
@[simp] theorem recordError_imgLen (code : ErrCode) : (recordError code s).imgLen = s.imgLen := rfl
@[simp] theorem recordError_seqCodes (code : ErrCode) : (recordError code s).seqCodes = s.seqCodes := rfl
@[simp] theorem recordError_seqAddr (code : ErrCode) : (recordError code s).seqAddr = s.seqAddr := rfl
@[simp] theorem recordError_pktCount (code : ErrCode) : (recordError code s).pktCount = s.pktCount := rfl
@[simp] theorem recordError_chunk (code : ErrCode) : (recordError code s).chunk = s.chunk := rfl
@[simp] theorem recordError_imgCap (code : ErrCode) : (recordError code s).imgCap = s.imgCap := rfl
@[simp] theorem recordError_pay (code : ErrCode) : (recordError code s).pay = s.pay := rfl
@[simp] theorem recordError_pkt (code : ErrCode) : (recordError code s).pkt = s.pkt := rfl
@[simp] theorem recordError_img (code : ErrCode) : (recordError code s).img = s.img := rfl
@[simp] theorem recordError_eph (code : ErrCode) : (recordError code s).eph = s.eph := rfl
@[simp] theorem recordError_out (code : ErrCode) : (recordError code s).out = s.out := rfl
@[simp] theorem recordError_resets (code : ErrCode) : (recordError code s).resets = s.resets := rfl
@[simp] theorem recordError_schedule (code : ErrCode) : (recordError code s).schedule = s.schedule := rfl
@[simp] theorem recordError_program (code : ErrCode) : (recordError code s).program = s.program := rfl
@[simp] theorem recordError_hostReads (code : ErrCode) : (recordError code s).hostReads = s.hostReads := rfl

/-! A STATUS write changes the four stored STATUS fields (rule R24). -/

@[simp] theorem writeStatus_latch (v : Word) : (writeStatus v s).latch = s.latch := rfl
@[simp] theorem writeStatus_done (v : Word) : (writeStatus v s).done = (s.done && !v.getLsbD 1) := rfl
@[simp] theorem writeStatus_err (v : Word) : (writeStatus v s).err = (s.err && !v.getLsbD 2) := rfl
@[simp] theorem writeStatus_txdrop (v : Word) : (writeStatus v s).txdrop = (s.txdrop && !v.getLsbD 3) := rfl
@[simp] theorem writeStatus_errcode (v : Word) : (writeStatus v s).errcode = (if v.getLsbD 2 then .none else s.errcode) := rfl
@[simp] theorem writeStatus_ien (v : Word) : (writeStatus v s).ien = s.ien := rfl
@[simp] theorem writeStatus_crc (v : Word) : (writeStatus v s).crc = s.crc := rfl
@[simp] theorem writeStatus_hdr (v : Word) : (writeStatus v s).hdr = s.hdr := rfl
@[simp] theorem writeStatus_plen (v : Word) : (writeStatus v s).plen = s.plen := rfl
@[simp] theorem writeStatus_imgLen (v : Word) : (writeStatus v s).imgLen = s.imgLen := rfl
@[simp] theorem writeStatus_seqCodes (v : Word) : (writeStatus v s).seqCodes = s.seqCodes := rfl
@[simp] theorem writeStatus_seqAddr (v : Word) : (writeStatus v s).seqAddr = s.seqAddr := rfl
@[simp] theorem writeStatus_pktCount (v : Word) : (writeStatus v s).pktCount = s.pktCount := rfl
@[simp] theorem writeStatus_chunk (v : Word) : (writeStatus v s).chunk = s.chunk := rfl
@[simp] theorem writeStatus_imgCap (v : Word) : (writeStatus v s).imgCap = s.imgCap := rfl
@[simp] theorem writeStatus_pay (v : Word) : (writeStatus v s).pay = s.pay := rfl
@[simp] theorem writeStatus_pkt (v : Word) : (writeStatus v s).pkt = s.pkt := rfl
@[simp] theorem writeStatus_img (v : Word) : (writeStatus v s).img = s.img := rfl
@[simp] theorem writeStatus_eph (v : Word) : (writeStatus v s).eph = s.eph := rfl
@[simp] theorem writeStatus_out (v : Word) : (writeStatus v s).out = s.out := rfl
@[simp] theorem writeStatus_resets (v : Word) : (writeStatus v s).resets = s.resets := rfl
@[simp] theorem writeStatus_schedule (v : Word) : (writeStatus v s).schedule = s.schedule := rfl
@[simp] theorem writeStatus_program (v : Word) : (writeStatus v s).program = s.program := rfl
@[simp] theorem writeStatus_hostReads (v : Word) : (writeStatus v s).hostReads = s.hostReads := rfl

/-! An IEN write changes IEN (rule R25). -/

@[simp] theorem writeIen_latch (v : Word) : (writeIen v s).latch = s.latch := rfl
@[simp] theorem writeIen_done (v : Word) : (writeIen v s).done = s.done := rfl
@[simp] theorem writeIen_err (v : Word) : (writeIen v s).err = s.err := rfl
@[simp] theorem writeIen_txdrop (v : Word) : (writeIen v s).txdrop = s.txdrop := rfl
@[simp] theorem writeIen_errcode (v : Word) : (writeIen v s).errcode = s.errcode := rfl
@[simp] theorem writeIen_ien (v : Word) : (writeIen v s).ien = ⟨v.getLsbD 1, v.getLsbD 2, v.getLsbD 3⟩ := rfl
@[simp] theorem writeIen_crc (v : Word) : (writeIen v s).crc = s.crc := rfl
@[simp] theorem writeIen_hdr (v : Word) : (writeIen v s).hdr = s.hdr := rfl
@[simp] theorem writeIen_plen (v : Word) : (writeIen v s).plen = s.plen := rfl
@[simp] theorem writeIen_imgLen (v : Word) : (writeIen v s).imgLen = s.imgLen := rfl
@[simp] theorem writeIen_seqCodes (v : Word) : (writeIen v s).seqCodes = s.seqCodes := rfl
@[simp] theorem writeIen_seqAddr (v : Word) : (writeIen v s).seqAddr = s.seqAddr := rfl
@[simp] theorem writeIen_pktCount (v : Word) : (writeIen v s).pktCount = s.pktCount := rfl
@[simp] theorem writeIen_chunk (v : Word) : (writeIen v s).chunk = s.chunk := rfl
@[simp] theorem writeIen_imgCap (v : Word) : (writeIen v s).imgCap = s.imgCap := rfl
@[simp] theorem writeIen_pay (v : Word) : (writeIen v s).pay = s.pay := rfl
@[simp] theorem writeIen_pkt (v : Word) : (writeIen v s).pkt = s.pkt := rfl
@[simp] theorem writeIen_img (v : Word) : (writeIen v s).img = s.img := rfl
@[simp] theorem writeIen_eph (v : Word) : (writeIen v s).eph = s.eph := rfl
@[simp] theorem writeIen_out (v : Word) : (writeIen v s).out = s.out := rfl
@[simp] theorem writeIen_resets (v : Word) : (writeIen v s).resets = s.resets := rfl
@[simp] theorem writeIen_schedule (v : Word) : (writeIen v s).schedule = s.schedule := rfl
@[simp] theorem writeIen_program (v : Word) : (writeIen v s).program = s.program := rfl
@[simp] theorem writeIen_hostReads (v : Word) : (writeIen v s).hostReads = s.hostReads := rfl

/-! Storing a built packet changes PKT and CRC (rule R127). -/

@[simp] theorem storePacket_latch (b : Packet × Half) : (storePacket b s).latch = s.latch := rfl
@[simp] theorem storePacket_done (b : Packet × Half) : (storePacket b s).done = s.done := rfl
@[simp] theorem storePacket_err (b : Packet × Half) : (storePacket b s).err = s.err := rfl
@[simp] theorem storePacket_txdrop (b : Packet × Half) : (storePacket b s).txdrop = s.txdrop := rfl
@[simp] theorem storePacket_errcode (b : Packet × Half) : (storePacket b s).errcode = s.errcode := rfl
@[simp] theorem storePacket_ien (b : Packet × Half) : (storePacket b s).ien = s.ien := rfl
@[simp] theorem storePacket_crc (b : Packet × Half) : (storePacket b s).crc = b.2 := rfl
@[simp] theorem storePacket_hdr (b : Packet × Half) : (storePacket b s).hdr = s.hdr := rfl
@[simp] theorem storePacket_plen (b : Packet × Half) : (storePacket b s).plen = s.plen := rfl
@[simp] theorem storePacket_imgLen (b : Packet × Half) : (storePacket b s).imgLen = s.imgLen := rfl
@[simp] theorem storePacket_seqCodes (b : Packet × Half) : (storePacket b s).seqCodes = s.seqCodes := rfl
@[simp] theorem storePacket_seqAddr (b : Packet × Half) : (storePacket b s).seqAddr = s.seqAddr := rfl
@[simp] theorem storePacket_pktCount (b : Packet × Half) : (storePacket b s).pktCount = s.pktCount := rfl
@[simp] theorem storePacket_chunk (b : Packet × Half) : (storePacket b s).chunk = s.chunk := rfl
@[simp] theorem storePacket_imgCap (b : Packet × Half) : (storePacket b s).imgCap = s.imgCap := rfl
@[simp] theorem storePacket_pay (b : Packet × Half) : (storePacket b s).pay = s.pay := rfl
@[simp] theorem storePacket_pkt (b : Packet × Half) : (storePacket b s).pkt = b.1 := rfl
@[simp] theorem storePacket_img (b : Packet × Half) : (storePacket b s).img = s.img := rfl
@[simp] theorem storePacket_eph (b : Packet × Half) : (storePacket b s).eph = s.eph := rfl
@[simp] theorem storePacket_out (b : Packet × Half) : (storePacket b s).out = s.out := rfl
@[simp] theorem storePacket_resets (b : Packet × Half) : (storePacket b s).resets = s.resets := rfl
@[simp] theorem storePacket_schedule (b : Packet × Half) : (storePacket b s).schedule = s.schedule := rfl
@[simp] theorem storePacket_program (b : Packet × Half) : (storePacket b s).program = s.program := rfl
@[simp] theorem storePacket_hostReads (b : Packet × Half) : (storePacket b s).hostReads = s.hostReads := rfl

/-! Acceptance changes LATCH, DONE and EPH (rule R161). -/

@[simp] theorem acceptCommand_latch (w : Word) : (acceptCommand w s).latch = w := rfl
@[simp] theorem acceptCommand_done (w : Word) : (acceptCommand w s).done = false := rfl
@[simp] theorem acceptCommand_err (w : Word) : (acceptCommand w s).err = s.err := rfl
@[simp] theorem acceptCommand_txdrop (w : Word) : (acceptCommand w s).txdrop = s.txdrop := rfl
@[simp] theorem acceptCommand_errcode (w : Word) : (acceptCommand w s).errcode = s.errcode := rfl
@[simp] theorem acceptCommand_ien (w : Word) : (acceptCommand w s).ien = s.ien := rfl
@[simp] theorem acceptCommand_crc (w : Word) : (acceptCommand w s).crc = s.crc := rfl
@[simp] theorem acceptCommand_hdr (w : Word) : (acceptCommand w s).hdr = s.hdr := rfl
@[simp] theorem acceptCommand_plen (w : Word) : (acceptCommand w s).plen = s.plen := rfl
@[simp] theorem acceptCommand_imgLen (w : Word) : (acceptCommand w s).imgLen = s.imgLen := rfl
@[simp] theorem acceptCommand_seqCodes (w : Word) : (acceptCommand w s).seqCodes = s.seqCodes := rfl
@[simp] theorem acceptCommand_seqAddr (w : Word) : (acceptCommand w s).seqAddr = s.seqAddr := rfl
@[simp] theorem acceptCommand_pktCount (w : Word) : (acceptCommand w s).pktCount = s.pktCount := rfl
@[simp] theorem acceptCommand_chunk (w : Word) : (acceptCommand w s).chunk = s.chunk := rfl
@[simp] theorem acceptCommand_imgCap (w : Word) : (acceptCommand w s).imgCap = s.imgCap := rfl
@[simp] theorem acceptCommand_pay (w : Word) : (acceptCommand w s).pay = s.pay := rfl
@[simp] theorem acceptCommand_pkt (w : Word) : (acceptCommand w s).pkt = s.pkt := rfl
@[simp] theorem acceptCommand_img (w : Word) : (acceptCommand w s).img = s.img := rfl
@[simp] theorem acceptCommand_eph (w : Word) : (acceptCommand w s).eph = .decode := rfl
@[simp] theorem acceptCommand_out (w : Word) : (acceptCommand w s).out = s.out := rfl
@[simp] theorem acceptCommand_resets (w : Word) : (acceptCommand w s).resets = s.resets := rfl
@[simp] theorem acceptCommand_schedule (w : Word) : (acceptCommand w s).schedule = s.schedule := rfl
@[simp] theorem acceptCommand_program (w : Word) : (acceptCommand w s).program = s.program := rfl
@[simp] theorem acceptCommand_hostReads (w : Word) : (acceptCommand w s).hostReads = s.hostReads := rfl

/-! An emission changes OUT, PKT_COUNT and TXDROP (rule R169). -/

@[simp] theorem logEmission_latch (o : SinkOutcome) : (logEmission o s).latch = s.latch := rfl
@[simp] theorem logEmission_done (o : SinkOutcome) : (logEmission o s).done = s.done := rfl
@[simp] theorem logEmission_err (o : SinkOutcome) : (logEmission o s).err = s.err := rfl
@[simp] theorem logEmission_txdrop (o : SinkOutcome) : (logEmission o s).txdrop = (s.txdrop || decide (o = .dropped)) := rfl
@[simp] theorem logEmission_errcode (o : SinkOutcome) : (logEmission o s).errcode = s.errcode := rfl
@[simp] theorem logEmission_ien (o : SinkOutcome) : (logEmission o s).ien = s.ien := rfl
@[simp] theorem logEmission_crc (o : SinkOutcome) : (logEmission o s).crc = s.crc := rfl
@[simp] theorem logEmission_hdr (o : SinkOutcome) : (logEmission o s).hdr = s.hdr := rfl
@[simp] theorem logEmission_plen (o : SinkOutcome) : (logEmission o s).plen = s.plen := rfl
@[simp] theorem logEmission_imgLen (o : SinkOutcome) : (logEmission o s).imgLen = s.imgLen := rfl
@[simp] theorem logEmission_seqCodes (o : SinkOutcome) : (logEmission o s).seqCodes = s.seqCodes := rfl
@[simp] theorem logEmission_seqAddr (o : SinkOutcome) : (logEmission o s).seqAddr = s.seqAddr := rfl
@[simp] theorem logEmission_pktCount (o : SinkOutcome) : (logEmission o s).pktCount = s.pktCount + 1 := rfl
@[simp] theorem logEmission_chunk (o : SinkOutcome) : (logEmission o s).chunk = s.chunk := rfl
@[simp] theorem logEmission_imgCap (o : SinkOutcome) : (logEmission o s).imgCap = s.imgCap := rfl
@[simp] theorem logEmission_pay (o : SinkOutcome) : (logEmission o s).pay = s.pay := rfl
@[simp] theorem logEmission_pkt (o : SinkOutcome) : (logEmission o s).pkt = s.pkt := rfl
@[simp] theorem logEmission_img (o : SinkOutcome) : (logEmission o s).img = s.img := rfl
@[simp] theorem logEmission_eph (o : SinkOutcome) : (logEmission o s).eph = s.eph := rfl
@[simp] theorem logEmission_out (o : SinkOutcome) : (logEmission o s).out = s.out ++ [⟨s.pkt, o⟩] := rfl
@[simp] theorem logEmission_resets (o : SinkOutcome) : (logEmission o s).resets = s.resets := rfl
@[simp] theorem logEmission_schedule (o : SinkOutcome) : (logEmission o s).schedule = s.schedule := rfl
@[simp] theorem logEmission_program (o : SinkOutcome) : (logEmission o s).program = s.program := rfl
@[simp] theorem logEmission_hostReads (o : SinkOutcome) : (logEmission o s).hostReads = s.hostReads := rfl

/-! A read changes nothing but the host's own record (rule R60). -/

@[simp] theorem recordRead_latch (off : Word) (width : Nat) (v : Word) : (recordRead off width v s).latch = s.latch := rfl
@[simp] theorem recordRead_done (off : Word) (width : Nat) (v : Word) : (recordRead off width v s).done = s.done := rfl
@[simp] theorem recordRead_err (off : Word) (width : Nat) (v : Word) : (recordRead off width v s).err = s.err := rfl
@[simp] theorem recordRead_txdrop (off : Word) (width : Nat) (v : Word) : (recordRead off width v s).txdrop = s.txdrop := rfl
@[simp] theorem recordRead_errcode (off : Word) (width : Nat) (v : Word) : (recordRead off width v s).errcode = s.errcode := rfl
@[simp] theorem recordRead_ien (off : Word) (width : Nat) (v : Word) : (recordRead off width v s).ien = s.ien := rfl
@[simp] theorem recordRead_crc (off : Word) (width : Nat) (v : Word) : (recordRead off width v s).crc = s.crc := rfl
@[simp] theorem recordRead_hdr (off : Word) (width : Nat) (v : Word) : (recordRead off width v s).hdr = s.hdr := rfl
@[simp] theorem recordRead_plen (off : Word) (width : Nat) (v : Word) : (recordRead off width v s).plen = s.plen := rfl
@[simp] theorem recordRead_imgLen (off : Word) (width : Nat) (v : Word) : (recordRead off width v s).imgLen = s.imgLen := rfl
@[simp] theorem recordRead_seqCodes (off : Word) (width : Nat) (v : Word) : (recordRead off width v s).seqCodes = s.seqCodes := rfl
@[simp] theorem recordRead_seqAddr (off : Word) (width : Nat) (v : Word) : (recordRead off width v s).seqAddr = s.seqAddr := rfl
@[simp] theorem recordRead_pktCount (off : Word) (width : Nat) (v : Word) : (recordRead off width v s).pktCount = s.pktCount := rfl
@[simp] theorem recordRead_chunk (off : Word) (width : Nat) (v : Word) : (recordRead off width v s).chunk = s.chunk := rfl
@[simp] theorem recordRead_imgCap (off : Word) (width : Nat) (v : Word) : (recordRead off width v s).imgCap = s.imgCap := rfl
@[simp] theorem recordRead_pay (off : Word) (width : Nat) (v : Word) : (recordRead off width v s).pay = s.pay := rfl
@[simp] theorem recordRead_pkt (off : Word) (width : Nat) (v : Word) : (recordRead off width v s).pkt = s.pkt := rfl
@[simp] theorem recordRead_img (off : Word) (width : Nat) (v : Word) : (recordRead off width v s).img = s.img := rfl
@[simp] theorem recordRead_eph (off : Word) (width : Nat) (v : Word) : (recordRead off width v s).eph = s.eph := rfl
@[simp] theorem recordRead_out (off : Word) (width : Nat) (v : Word) : (recordRead off width v s).out = s.out := rfl
@[simp] theorem recordRead_resets (off : Word) (width : Nat) (v : Word) : (recordRead off width v s).resets = s.resets := rfl
@[simp] theorem recordRead_schedule (off : Word) (width : Nat) (v : Word) : (recordRead off width v s).schedule = s.schedule := rfl
@[simp] theorem recordRead_program (off : Word) (width : Nat) (v : Word) : (recordRead off width v s).program = s.program := rfl
@[simp] theorem recordRead_hostReads (off : Word) (width : Nat) (v : Word) : (recordRead off width v s).hostReads = s.hostReads ++ [⟨off, width, v⟩] := rfl

/-! The Set packet's step changes PKT, CRC, SEQ_ADDR and EPH (rule R146). -/

@[simp] theorem seqSetStep_latch : (seqSetStep s).latch = s.latch := rfl
@[simp] theorem seqSetStep_done : (seqSetStep s).done = s.done := rfl
@[simp] theorem seqSetStep_err : (seqSetStep s).err = s.err := rfl
@[simp] theorem seqSetStep_txdrop : (seqSetStep s).txdrop = s.txdrop := rfl
@[simp] theorem seqSetStep_errcode : (seqSetStep s).errcode = s.errcode := rfl
@[simp] theorem seqSetStep_ien : (seqSetStep s).ien = s.ien := rfl
@[simp] theorem seqSetStep_crc : (seqSetStep s).crc = (setPacket s s.seqAddr.toNat s.chunkLen).2 := rfl
@[simp] theorem seqSetStep_hdr : (seqSetStep s).hdr = s.hdr := rfl
@[simp] theorem seqSetStep_plen : (seqSetStep s).plen = s.plen := rfl
@[simp] theorem seqSetStep_imgLen : (seqSetStep s).imgLen = s.imgLen := rfl
@[simp] theorem seqSetStep_seqCodes : (seqSetStep s).seqCodes = s.seqCodes := rfl
@[simp] theorem seqSetStep_seqAddr : (seqSetStep s).seqAddr = BitVec.ofNat 25 (s.seqAddr.toNat + s.chunkLen) := rfl
@[simp] theorem seqSetStep_pktCount : (seqSetStep s).pktCount = s.pktCount := rfl
@[simp] theorem seqSetStep_chunk : (seqSetStep s).chunk = s.chunk := rfl
@[simp] theorem seqSetStep_imgCap : (seqSetStep s).imgCap = s.imgCap := rfl
@[simp] theorem seqSetStep_pay : (seqSetStep s).pay = s.pay := rfl
@[simp] theorem seqSetStep_pkt : (seqSetStep s).pkt = (setPacket s s.seqAddr.toNat s.chunkLen).1 := rfl
@[simp] theorem seqSetStep_img : (seqSetStep s).img = s.img := rfl
@[simp] theorem seqSetStep_eph : (seqSetStep s).eph = .emit .more := rfl
@[simp] theorem seqSetStep_out : (seqSetStep s).out = s.out := rfl
@[simp] theorem seqSetStep_resets : (seqSetStep s).resets = s.resets := rfl
@[simp] theorem seqSetStep_schedule : (seqSetStep s).schedule = s.schedule := rfl
@[simp] theorem seqSetStep_program : (seqSetStep s).program = s.program := rfl
@[simp] theorem seqSetStep_hostReads : (seqSetStep s).hostReads = s.hostReads := rfl

/-! The Save packet's step changes PKT, CRC and EPH (rule R147). -/

@[simp] theorem seqSaveStep_latch : (seqSaveStep s).latch = s.latch := rfl
@[simp] theorem seqSaveStep_done : (seqSaveStep s).done = s.done := rfl
@[simp] theorem seqSaveStep_err : (seqSaveStep s).err = s.err := rfl
@[simp] theorem seqSaveStep_txdrop : (seqSaveStep s).txdrop = s.txdrop := rfl
@[simp] theorem seqSaveStep_errcode : (seqSaveStep s).errcode = s.errcode := rfl
@[simp] theorem seqSaveStep_ien : (seqSaveStep s).ien = s.ien := rfl
@[simp] theorem seqSaveStep_crc : (seqSaveStep s).crc = (savePacket s).2 := rfl
@[simp] theorem seqSaveStep_hdr : (seqSaveStep s).hdr = s.hdr := rfl
@[simp] theorem seqSaveStep_plen : (seqSaveStep s).plen = s.plen := rfl
@[simp] theorem seqSaveStep_imgLen : (seqSaveStep s).imgLen = s.imgLen := rfl
@[simp] theorem seqSaveStep_seqCodes : (seqSaveStep s).seqCodes = s.seqCodes := rfl
@[simp] theorem seqSaveStep_seqAddr : (seqSaveStep s).seqAddr = s.seqAddr := rfl
@[simp] theorem seqSaveStep_pktCount : (seqSaveStep s).pktCount = s.pktCount := rfl
@[simp] theorem seqSaveStep_chunk : (seqSaveStep s).chunk = s.chunk := rfl
@[simp] theorem seqSaveStep_imgCap : (seqSaveStep s).imgCap = s.imgCap := rfl
@[simp] theorem seqSaveStep_pay : (seqSaveStep s).pay = s.pay := rfl
@[simp] theorem seqSaveStep_pkt : (seqSaveStep s).pkt = (savePacket s).1 := rfl
@[simp] theorem seqSaveStep_img : (seqSaveStep s).img = s.img := rfl
@[simp] theorem seqSaveStep_eph : (seqSaveStep s).eph = .emit .final := rfl
@[simp] theorem seqSaveStep_out : (seqSaveStep s).out = s.out := rfl
@[simp] theorem seqSaveStep_resets : (seqSaveStep s).resets = s.resets := rfl
@[simp] theorem seqSaveStep_schedule : (seqSaveStep s).schedule = s.schedule := rfl
@[simp] theorem seqSaveStep_program : (seqSaveStep s).program = s.program := rfl
@[simp] theorem seqSaveStep_hostReads : (seqSaveStep s).hostReads = s.hostReads := rfl

/-! Taking a turn off the schedule changes nothing else. -/

@[simp] theorem popTurn_latch : s.popTurn.latch = s.latch := rfl
@[simp] theorem popTurn_done : s.popTurn.done = s.done := rfl
@[simp] theorem popTurn_err : s.popTurn.err = s.err := rfl
@[simp] theorem popTurn_txdrop : s.popTurn.txdrop = s.txdrop := rfl
@[simp] theorem popTurn_errcode : s.popTurn.errcode = s.errcode := rfl
@[simp] theorem popTurn_ien : s.popTurn.ien = s.ien := rfl
@[simp] theorem popTurn_crc : s.popTurn.crc = s.crc := rfl
@[simp] theorem popTurn_hdr : s.popTurn.hdr = s.hdr := rfl
@[simp] theorem popTurn_plen : s.popTurn.plen = s.plen := rfl
@[simp] theorem popTurn_imgLen : s.popTurn.imgLen = s.imgLen := rfl
@[simp] theorem popTurn_seqCodes : s.popTurn.seqCodes = s.seqCodes := rfl
@[simp] theorem popTurn_seqAddr : s.popTurn.seqAddr = s.seqAddr := rfl
@[simp] theorem popTurn_pktCount : s.popTurn.pktCount = s.pktCount := rfl
@[simp] theorem popTurn_chunk : s.popTurn.chunk = s.chunk := rfl
@[simp] theorem popTurn_imgCap : s.popTurn.imgCap = s.imgCap := rfl
@[simp] theorem popTurn_pay : s.popTurn.pay = s.pay := rfl
@[simp] theorem popTurn_pkt : s.popTurn.pkt = s.pkt := rfl
@[simp] theorem popTurn_img : s.popTurn.img = s.img := rfl
@[simp] theorem popTurn_eph : s.popTurn.eph = s.eph := rfl
@[simp] theorem popTurn_out : s.popTurn.out = s.out := rfl
@[simp] theorem popTurn_resets : s.popTurn.resets = s.resets := rfl
@[simp] theorem popTurn_schedule : s.popTurn.schedule = s.schedule.tail := rfl
@[simp] theorem popTurn_program : s.popTurn.program = s.program := rfl
@[simp] theorem popTurn_hostReads : s.popTurn.hostReads = s.hostReads := rfl

/-! The emission step changes OUT, PKT_COUNT, TXDROP, DONE and EPH (rule R169). -/

@[simp] theorem emission_latch (k : AfterEmit) (o : SinkOutcome) :
    (emission k o s).latch = s.latch := by cases k <;> rfl
@[simp] theorem emission_done (k : AfterEmit) (o : SinkOutcome) :
    (emission k o s).done = (if k = .final then true else s.done) := by cases k <;> rfl
@[simp] theorem emission_err (k : AfterEmit) (o : SinkOutcome) :
    (emission k o s).err = s.err := by cases k <;> rfl
@[simp] theorem emission_txdrop (k : AfterEmit) (o : SinkOutcome) :
    (emission k o s).txdrop = (s.txdrop || decide (o = .dropped)) := by cases k <;> rfl
@[simp] theorem emission_errcode (k : AfterEmit) (o : SinkOutcome) :
    (emission k o s).errcode = s.errcode := by cases k <;> rfl
@[simp] theorem emission_ien (k : AfterEmit) (o : SinkOutcome) :
    (emission k o s).ien = s.ien := by cases k <;> rfl
@[simp] theorem emission_crc (k : AfterEmit) (o : SinkOutcome) :
    (emission k o s).crc = s.crc := by cases k <;> rfl
@[simp] theorem emission_hdr (k : AfterEmit) (o : SinkOutcome) :
    (emission k o s).hdr = s.hdr := by cases k <;> rfl
@[simp] theorem emission_plen (k : AfterEmit) (o : SinkOutcome) :
    (emission k o s).plen = s.plen := by cases k <;> rfl
@[simp] theorem emission_imgLen (k : AfterEmit) (o : SinkOutcome) :
    (emission k o s).imgLen = s.imgLen := by cases k <;> rfl
@[simp] theorem emission_seqCodes (k : AfterEmit) (o : SinkOutcome) :
    (emission k o s).seqCodes = s.seqCodes := by cases k <;> rfl
@[simp] theorem emission_seqAddr (k : AfterEmit) (o : SinkOutcome) :
    (emission k o s).seqAddr = s.seqAddr := by cases k <;> rfl
@[simp] theorem emission_pktCount (k : AfterEmit) (o : SinkOutcome) :
    (emission k o s).pktCount = s.pktCount + 1 := by cases k <;> rfl
@[simp] theorem emission_chunk (k : AfterEmit) (o : SinkOutcome) :
    (emission k o s).chunk = s.chunk := by cases k <;> rfl
@[simp] theorem emission_imgCap (k : AfterEmit) (o : SinkOutcome) :
    (emission k o s).imgCap = s.imgCap := by cases k <;> rfl
@[simp] theorem emission_pay (k : AfterEmit) (o : SinkOutcome) :
    (emission k o s).pay = s.pay := by cases k <;> rfl
@[simp] theorem emission_pkt (k : AfterEmit) (o : SinkOutcome) :
    (emission k o s).pkt = s.pkt := by cases k <;> rfl
@[simp] theorem emission_img (k : AfterEmit) (o : SinkOutcome) :
    (emission k o s).img = s.img := by cases k <;> rfl
@[simp] theorem emission_eph (k : AfterEmit) (o : SinkOutcome) :
    (emission k o s).eph = (if k = .final then .idle else .seq) := by cases k <;> rfl
@[simp] theorem emission_out (k : AfterEmit) (o : SinkOutcome) :
    (emission k o s).out = s.out ++ [⟨s.pkt, o⟩] := by cases k <;> rfl
@[simp] theorem emission_resets (k : AfterEmit) (o : SinkOutcome) :
    (emission k o s).resets = s.resets := by cases k <;> rfl
@[simp] theorem emission_schedule (k : AfterEmit) (o : SinkOutcome) :
    (emission k o s).schedule = s.schedule := by cases k <;> rfl
@[simp] theorem emission_program (k : AfterEmit) (o : SinkOutcome) :
    (emission k o s).program = s.program := by cases k <;> rfl
@[simp] theorem emission_hostReads (k : AfterEmit) (o : SinkOutcome) :
    (emission k o s).hostReads = s.hostReads := by cases k <;> rfl

/-! Reset gives every piece of the block's state its value of rule R22 and keeps what is wired or not the block's (rules R200, R201). -/

@[simp] theorem resetTurn_latch : (resetTurn s).latch = 0 := rfl
@[simp] theorem resetTurn_done : (resetTurn s).done = false := rfl
@[simp] theorem resetTurn_err : (resetTurn s).err = false := rfl
@[simp] theorem resetTurn_txdrop : (resetTurn s).txdrop = false := rfl
@[simp] theorem resetTurn_errcode : (resetTurn s).errcode = .none := rfl
@[simp] theorem resetTurn_ien : (resetTurn s).ien = ⟨false, false, false⟩ := rfl
@[simp] theorem resetTurn_crc : (resetTurn s).crc = 0xFFFF := rfl
@[simp] theorem resetTurn_hdr : (resetTurn s).hdr = 0 := rfl
@[simp] theorem resetTurn_plen : (resetTurn s).plen = 0 := rfl
@[simp] theorem resetTurn_imgLen : (resetTurn s).imgLen = s.imgCap := rfl
@[simp] theorem resetTurn_seqCodes : (resetTurn s).seqCodes = 0 := rfl
@[simp] theorem resetTurn_seqAddr : (resetTurn s).seqAddr = 0 := rfl
@[simp] theorem resetTurn_pktCount : (resetTurn s).pktCount = 0 := rfl
@[simp] theorem resetTurn_chunk : (resetTurn s).chunk = s.chunk := rfl
@[simp] theorem resetTurn_imgCap : (resetTurn s).imgCap = s.imgCap := rfl
@[simp] theorem resetTurn_pay : (resetTurn s).pay = Vector.replicate 56 0 := rfl
@[simp] theorem resetTurn_pkt : (resetTurn s).pkt = Vector.replicate 65 0 := rfl
@[simp] theorem resetTurn_img : (resetTurn s).img = [] := rfl
@[simp] theorem resetTurn_eph : (resetTurn s).eph = .idle := rfl
@[simp] theorem resetTurn_out : (resetTurn s).out = s.out := rfl
@[simp] theorem resetTurn_resets : (resetTurn s).resets = s.resets + 1 := rfl
@[simp] theorem resetTurn_schedule : (resetTurn s).schedule = s.schedule := rfl
@[simp] theorem resetTurn_program : (resetTurn s).program = s.program := rfl
@[simp] theorem resetTurn_hostReads : (resetTurn s).hostReads = s.hostReads := rfl

/-- An error ending is the recording of the error and then `finish()` (rule R164). -/
@[simp] theorem raiseError_eq (code : ErrCode) : raiseError code s = finish (recordError code s) := rfl

/-- A refused write records the BUSY error and does nothing else (rule R184). -/
@[simp] theorem refuseWrite_eq : refuseWrite s = recordError .busy s := rfl

end Sys2Proof.Machine
end

