-- ==== Sys2Proof/Laws/Memory.lean ====
section
/-! SUPPORT. The laws of the image memory: read after write, and that every memory operation keeps the canonical form. -/

namespace Sys2Proof.Machine

@[simp] theorem Memory.lookup_nil (a : Nat) : Memory.lookup [] a = none := rfl

@[simp] theorem Memory.lookup_cons (k : Nat) (v : Byte) (m : Memory) (a : Nat) :
    Memory.lookup ((k, v) :: m) a = if k = a then some v else Memory.lookup m a := rfl

/-- Read after write: the written address gives the byte, every other address is left alone. -/
@[simp] theorem Memory.lookup_write (m : Memory) (a : Nat) (b : Byte) (x : Nat) :
    (m.write a b).lookup x = if x = a then some b else m.lookup x := by
  induction m with
  | nil => simp [Memory.write, eq_comm]
  | cons c m ih =>
    obtain ⟨k, v⟩ := c
    rw [Memory.write]
    by_cases h₁ : a < k
    · rw [if_pos h₁, Memory.lookup_cons]; simp only [eq_comm]
    · rw [if_neg h₁]
      by_cases h₂ : a = k
      · subst h₂
        rw [if_pos rfl, Memory.lookup_cons, Memory.lookup_cons]
        by_cases h : a = x <;> simp [h, Ne.symm]
      · rw [if_neg h₂, Memory.lookup_cons, ih, Memory.lookup_cons]
        by_cases h : k = x
        · rw [if_pos h, if_pos h, if_neg (by omega)]
        · simp only [if_neg h]

/-- The addresses a write leaves listed. -/
theorem Memory.mem_write {m : Memory} {a : Nat} {b : Byte} {c : Host.Cell} (h : c ∈ m.write a b) :
    c = (a, b) ∨ c ∈ m := by
  induction m with
  | nil => simpa [Memory.write] using h
  | cons d m ih =>
    obtain ⟨k, v⟩ := d
    rw [Memory.write] at h
    split_ifs at h with h₁ h₂
    · simpa using h
    · simp only [List.mem_cons] at h ⊢; tauto
    · simp only [List.mem_cons] at h ⊢
      rcases h with h | h
      · exact .inr (.inl h)
      · exact (ih h).imp_right .inr

/-- A write keeps the canonical form. -/
theorem Memory.write_wf {m : Memory} (h : m.wf) (a : Nat) (b : Byte) : Memory.wf (m.write a b) := by
  induction m with
  | nil => simp [Memory.write]
  | cons d m ih =>
    obtain ⟨k, v⟩ := d
    obtain ⟨hk, hm⟩ := List.pairwise_cons.1 h
    rw [Memory.write]
    split_ifs with h₁ h₂
    · refine List.pairwise_cons.2 ⟨fun c hc => ?_, h⟩
      rcases List.mem_cons.1 hc with rfl | hc
      · exact h₁
      · exact h₁.trans (hk c hc)
    · exact List.pairwise_cons.2 ⟨fun c hc => h₂ ▸ hk c hc, hm⟩
    · refine List.pairwise_cons.2 ⟨fun c hc => ?_, ih hm⟩
      rcases Memory.mem_write hc with rfl | hc
      · show k < a; omega
      · exact hk c hc

@[simp] theorem Memory.writeBytes_nil (m : Memory) (a : Nat) : m.writeBytes a [] = m := rfl

/-- Read after a write of several bytes. -/
theorem Memory.lookup_writeBytes (m : Memory) (a : Nat) (bs : List Byte) (x : Nat) :
    (m.writeBytes a bs).lookup x = if a ≤ x ∧ x < a + bs.length then bs[x - a]? else m.lookup x := by
  induction bs generalizing m a with
  | nil => rw [if_neg (by simp), Memory.writeBytes_nil]
  | cons b bs ih =>
    rw [Memory.writeBytes, ih, Memory.lookup_write, List.length_cons]
    by_cases hx : x = a
    · subst hx; simp
    · by_cases h : a + 1 ≤ x ∧ x < a + 1 + bs.length
      · have h' : a ≤ x ∧ x < a + (bs.length + 1) := by omega
        have hs : x - a = (x - (a + 1)) + 1 := by omega
        simp [h, h', hs]
      · have h' : ¬(a ≤ x ∧ x < a + (bs.length + 1)) := by omega
        rw [if_neg h, if_neg h', if_neg hx]

/-- A write of several bytes keeps the canonical form. -/
theorem Memory.writeBytes_wf {m : Memory} (h : m.wf) (a : Nat) (bs : List Byte) : Memory.wf (m.writeBytes a bs) := by
  induction bs generalizing m a with
  | nil => exact h
  | cons b bs ih => exact ih (Memory.write_wf h a b) (a + 1)

/-- A write of several bytes lists no other address than the ones it writes. -/
theorem Memory.mem_writeBytes {m : Memory} {a : Nat} {bs : List Byte} {c : Host.Cell} (h : c ∈ m.writeBytes a bs) :
    (a ≤ c.1 ∧ c.1 < a + bs.length) ∨ c ∈ m := by
  induction bs generalizing m a with
  | nil => exact .inr h
  | cons b bs ih =>
    rcases ih h with h | h
    · left; simp only [List.length_cons]; omega
    · rcases Memory.mem_write h with rfl | h
      · left; simp
      · exact .inr h

/-- After IMG_CLEAR every address below the capacity reads zero (rule R150). -/
theorem Memory.lookup_zeros (n a : Nat) : (Memory.zeros n).lookup a = if a < n then some 0 else none := by
  have key : ∀ l : List Nat, Memory.lookup (l.map fun a => (a, 0#8)) a = if a ∈ l then some 0 else none := by
    intro l
    induction l with
    | nil => simp
    | cons k l ih =>
      rw [List.map_cons, Memory.lookup_cons, ih]
      by_cases h : k = a
      · simp [h]
      · simp [h, Ne.symm h]
  simpa [Memory.zeros] using key (List.range n)

/-- IMG_CLEAR leaves the memory in canonical form. -/
theorem Memory.zeros_wf (n : Nat) : Memory.wf (Memory.zeros n) :=
  List.pairwise_map.2 (List.pairwise_lt_range (n := n))

/-- IMG_CLEAR lists addresses below the capacity only. -/
theorem Memory.mem_zeros {n : Nat} {c : Host.Cell} (h : c ∈ Memory.zeros n) : c.1 < n := by
  obtain ⟨a, ha, rfl⟩ := List.mem_map.1 h
  exact List.mem_range.1 ha

/-- Reading a byte of the image depends on the memory and the reset number only. -/
theorem imgByte_congr {s t : State} (hi : t.img = s.img) (hr : t.resets = s.resets) (a : Nat) :
    t.imgByte a = s.imgByte a := by
  rw [State.imgByte, State.imgByte, hi, hr]

/-- So does reading several. -/
theorem imgBytes_congr {s t : State} (hi : t.img = s.img) (hr : t.resets = s.resets) (a n : Nat) :
    t.imgBytes a n = s.imgBytes a n := by
  simp only [State.imgBytes, imgByte_congr hi hr]

@[simp] theorem imgBytes_length (s : State) (a n : Nat) : (s.imgBytes a n).length = n := by
  simp [State.imgBytes]

/-- The j-th of the bytes read is the byte at the j-th address. -/
theorem imgBytes_getElem? (s : State) (a n j : Nat) :
    (s.imgBytes a n)[j]? = if j < n then some (s.imgByte (a + j)) else none := by
  by_cases h : j < n <;> simp [State.imgBytes, h]

end Sys2Proof.Machine
end

