-- ==== Sys2Proof/Laws/Buffers.lean ====
section
/-! SUPPORT. The laws of the byte buffers and of byte order. -/

namespace Sys2Proof.Machine

/-- What a buffer holds after bytes are placed: the bytes where they fell, every other byte as before. -/
theorem placeBytes_getElem? {n : Nat} (buf : Vector Byte n) (off : Nat) (bs : List Byte) (i : Nat) :
    (placeBytes buf off bs)[i]? =
      if off ≤ i ∧ i < off + bs.length ∧ i < n then bs[i - off]? else buf[i]? := by
  induction bs generalizing buf off with
  | nil => rw [if_neg (by simp only [List.length_nil]; omega), placeBytes]
  | cons b bs ih =>
    rw [placeBytes, ih, List.length_cons]
    by_cases hi : i = off
    · subst hi
      by_cases hn : i < n <;> simp [hn]
    · by_cases h : off + 1 ≤ i ∧ i < off + 1 + bs.length ∧ i < n
      · have h' : off ≤ i ∧ i < off + (bs.length + 1) ∧ i < n := by omega
        have hs : i - off = (i - (off + 1)) + 1 := by omega
        simp [h, h', hs]
      · have h' : ¬(off ≤ i ∧ i < off + (bs.length + 1) ∧ i < n) := by omega
        simp only [if_neg h, if_neg h']
        rw [Vector.getElem?_setIfInBounds, if_neg (by omega)]

/-- The same, of a byte that exists. -/
theorem placeBytes_getElem {n : Nat} (buf : Vector Byte n) (off : Nat) (bs : List Byte) (i : Nat) (h : i < n) :
    (placeBytes buf off bs)[i] =
      if hi : off ≤ i ∧ i < off + bs.length then bs[i - off]'(by omega) else buf[i] := by
  have key := placeBytes_getElem? buf off bs i
  rw [Vector.getElem?_eq_getElem h] at key
  by_cases hi : off ≤ i ∧ i < off + bs.length
  · rw [if_pos ⟨hi.1, hi.2, h⟩, List.getElem?_eq_getElem (by omega)] at key
    simpa [hi] using key
  · rw [if_neg (by tauto), Vector.getElem?_eq_getElem h] at key
    simpa [hi] using key

@[simp] theorem le16_length (v : Half) : (le16 v).length = 2 := rfl

@[simp] theorem le32_length (v : Word) : (le32 v).length = 4 := rfl

/-- The two bytes of `le16` make the value again. -/
theorem le16_append (v : Half) : (v.extractLsb' 8 8 ++ v.extractLsb' 0 8 : Half) = v := by
  ext i hi
  simp only [BitVec.getElem_append, BitVec.getElem_extractLsb']
  split
  · simp [BitVec.getLsbD_eq_getElem hi]
  · have : 8 + (i - 8) = i := by omega
    simp [this, BitVec.getLsbD_eq_getElem hi]

/-- The four bytes of `le32` make the value again. -/
theorem le32_append (v : Word) :
    (v.extractLsb' 24 8 ++ v.extractLsb' 16 8 ++ v.extractLsb' 8 8 ++ v.extractLsb' 0 8 : Word) = v := by
  ext i hi
  simp only [BitVec.getElem_append, BitVec.getElem_extractLsb']
  split
  · simp [BitVec.getLsbD_eq_getElem hi]
  · split
    · have : 8 + (i - 8) = i := by omega
      simp [this, BitVec.getLsbD_eq_getElem hi]
    · split
      · have : 16 + (i - 8 - 8) = i := by omega
        simp [this, BitVec.getLsbD_eq_getElem hi]
      · have : 24 + (i - 8 - 8 - 8) = i := by omega
        simp [this, BitVec.getLsbD_eq_getElem hi]

@[simp] theorem leBytes_length (n v : Nat) : (leBytes n v).length = n := by
  induction n generalizing v with
  | zero => rfl
  | succ n ih => simp [leBytes, ih]

/-- A word of bytes, read as a number, is the number its bytes stand for (rule R55). -/
theorem wordAt_toNat (f : Nat → Byte) (i : Nat) :
    (wordAt f i).toNat = leValue [f i, f (i + 1), f (i + 2), f (i + 3)] := by
  have h0 := (f i).isLt
  have h1 := (f (i + 1)).isLt
  have h2 := (f (i + 2)).isLt
  have h3 := (f (i + 3)).isLt
  simp only [wordAt, BitVec.toNat_append, leValue]
  rw [← Nat.shiftLeft_add_eq_or_of_lt h0, ← Nat.shiftLeft_add_eq_or_of_lt h1, ← Nat.shiftLeft_add_eq_or_of_lt h2]
  simp only [Nat.shiftLeft_eq]
  omega

/-- A 32-bit image read is `MemRead(a, 4)` (rule R55). -/
theorem wordAt_imgByte (s : State) (a : Nat) : (wordAt s.imgByte a).toNat = memRead s a 4 := by
  rw [wordAt_toNat]; rfl

/-- Lane `j` of a word is the byte at index `i + j` (rule R55). -/
theorem wordAt_lane (f : Nat → Byte) (i : Nat) {j : Nat} (hj : j < 4) :
    (wordAt f i).extractLsb' (8 * j) 8 = f (i + j) := by
  apply BitVec.eq_of_getLsbD_eq
  intro k hk
  simp only [BitVec.getLsbD_extractLsb', wordAt, BitVec.getLsbD_append]
  interval_cases j
  · simp [hk]
  · simp [hk, show ¬8 + k < 8 by omega, show 8 + k - 8 = k by omega]
  · simp [hk, show ¬16 + k < 8 by omega, show ¬16 + k - 8 < 8 by omega, show 16 + k - 8 - 8 = k by omega]
  · simp [hk, show ¬24 + k < 8 by omega, show ¬24 + k - 8 < 8 by omega, show ¬24 + k - 8 - 8 < 8 by omega,
      show 24 + k - 8 - 8 - 8 = k by omega]

end Sys2Proof.Machine
end

