-- ==== Sys2Proof/Laws/Packet.lean ====
section
/-! SUPPORT. The laws of the checksum and of build_packet: chaining, and the packet layout byte by byte. -/

namespace Sys2Proof.Machine

/-- Chaining: a checksum may be computed in pieces (rule R102). -/
theorem crcFold_append (c : Half) (x y : List Byte) : crcFold c (x ++ y) = crcFold (crcFold c x) y :=
  List.foldl_append

@[simp] theorem crcFold_nil (c : Half) : crcFold c [] = c := rfl

@[simp] theorem crcFold_cons (c : Half) (b : Byte) (bs : List Byte) :
    crcFold c (b :: bs) = crcFold (crcStep c b) bs := rfl

@[simp] theorem zeroPacket_getElem (i : Nat) (h : i < 65) : zeroPacket[i]'h = 0 := by
  simp [zeroPacket]

@[simp] theorem placeBytes_toList_length {n : Nat} (buf : Vector Byte n) (off : Nat) (bs : List Byte) :
    (placeBytes buf off bs).toList.length = n := by simp

/-- The CRC region of a packet is what rule R123 says the CRC covers. -/
theorem crcRegion_eq_coveredBytes (p : Packet) : crcRegion p = coveredBytes p := by
  apply List.ext_getElem
  · simp [crcRegion, coveredBytes, Config.pktLen]
  · intro i h₁ h₂
    have hi : i < 64 := by simpa [crcRegion] using h₁
    simp only [crcRegion, coveredBytes, List.getElem_drop, Vector.getElem_toList, placeBytes_getElem,
      List.getElem_append, List.getElem_take, List.length_append, List.length_take, List.length_drop,
      Vector.length_toList, List.length_cons, List.length_nil]
    rcases Nat.lt_or_ge i 6 with h6 | h6
    · have : ¬(7 ≤ 1 + i ∧ 1 + i < 7 + (0 + 1 + 1)) := by omega
      simp [this, h6, show i < 8 by omega]
    · rcases Nat.lt_or_ge i 8 with h8 | h8
      · have h : 7 ≤ 1 + i ∧ 1 + i < 7 + (0 + 1 + 1) := by omega
        have hi : i = 6 ∨ i = 7 := by omega
        rcases hi with rfl | rfl <;> simp
      · have : ¬(7 ≤ 1 + i ∧ 1 + i < 7 + (0 + 1 + 1)) := by omega
        simp [this, show ¬(i < 8) by omega, show 9 + (i - 8) = 1 + i by omega]

/-- The bytes of a packet before its checksum is written (rules R121, R122). -/
theorem packetBody_getElem (cmd sub : Byte) (hdr : Option Word) (pay : List Byte) (i : Nat) (h : i < 65) :
    (packetBody cmd sub hdr pay)[i]'h =
      if 9 ≤ i then pay[i - 9]?.getD 0
      else if 3 ≤ i ∧ i < 7 then (hdr.getD 0).extractLsb' (8 * (i - 3)) 8
      else if i = 2 then sub
      else if i = 1 then cmd
      else 0 := by
  have hb : (packetBody cmd sub hdr pay)[i]'h =
      if hi : 9 ≤ i ∧ i < 9 + pay.length then pay[i - 9]'(by omega) else
        (match hdr with
          | some w => placeBytes (placeBytes (placeBytes zeroPacket 1 [cmd]) 2 [sub]) 3 (le32 w)
          | none => placeBytes (placeBytes zeroPacket 1 [cmd]) 2 [sub])[i]'h := by
    unfold packetBody
    exact placeBytes_getElem _ _ _ _ _
  rw [hb]
  by_cases h9 : 9 ≤ i
  · rw [if_pos h9]
    by_cases hp : i < 9 + pay.length
    · rw [dif_pos ⟨h9, hp⟩, List.getElem?_eq_getElem (by omega), Option.getD_some]
    · rw [dif_neg (by tauto), List.getElem?_eq_none (by omega), Option.getD_none]
      have h' : ¬(3 ≤ i ∧ i < 7) := by omega
      cases hdr <;> simp [placeBytes_getElem, h', show ¬(i < 3) by omega, show ¬(i < 2) by omega]
  · rw [dif_neg (by tauto), if_neg h9]
    have : i = 0 ∨ i = 1 ∨ i = 2 ∨ i = 3 ∨ i = 4 ∨ i = 5 ∨ i = 6 ∨ i = 7 ∨ i = 8 := by omega
    rcases this with rfl | rfl | rfl | rfl | rfl | rfl | rfl | rfl | rfl <;>
      cases hdr <;> simp [placeBytes_getElem, le32]

/-- The bytes of a built packet outside its CRC field are those of its body. -/
theorem buildPacket_getElem (cmd sub : Byte) (hdr : Option Word) (pay : List Byte) (i : Nat) (h : i < 65)
    (hc : i ≠ 7 ∧ i ≠ 8) :
    (buildPacket cmd sub hdr pay).1[i]'h = (packetBody cmd sub hdr pay)[i]'h := by
  have : ¬(7 ≤ i ∧ i < 9) := by omega
  simp [buildPacket, placeBytes_getElem, this]

/-- Writing zeros over the CRC field of a built packet gives its body again. -/
theorem buildPacket_zeroed (cmd sub : Byte) (hdr : Option Word) (pay : List Byte) :
    placeBytes (buildPacket cmd sub hdr pay).1 Config.crcOff [0, 0] = packetBody cmd sub hdr pay := by
  apply Vector.ext
  intro i hi
  have hb := packetBody_getElem cmd sub hdr pay i hi
  rcases Nat.lt_or_ge i 7 with h7 | h7
  · simp [buildPacket, placeBytes_getElem, show ¬(7 ≤ i ∧ i < 9) by omega]
  · rcases Nat.lt_or_ge i 9 with h9 | h9
    · have : i = 7 ∨ i = 8 := by omega
      rcases this with rfl | rfl <;> simp [placeBytes_getElem, hb, Config.crcOff]
    · simp [buildPacket, placeBytes_getElem, show ¬(i < 9) by omega]

/-- The checksum of a built packet, over what rule R123 says it covers. -/
theorem buildPacket_checksum (cmd sub : Byte) (hdr : Option Word) (pay : List Byte) :
    (buildPacket cmd sub hdr pay).2 = checksum (coveredBytes (buildPacket cmd sub hdr pay).1) := by
  rw [← crcRegion_eq_coveredBytes, crcRegion, buildPacket_zeroed]
  rfl

/-- The CRC field of a built packet is valid (rule R123). -/
theorem buildPacket_crcValid (cmd sub : Byte) (hdr : Option Word) (pay : List Byte) :
    crcValid (buildPacket cmd sub hdr pay).1 := by
  rw [crcValid, ← buildPacket_checksum]
  have h7 : (buildPacket cmd sub hdr pay).1[7] = (buildPacket cmd sub hdr pay).2.extractLsb' 0 8 := by
    simp [buildPacket, placeBytes_getElem, le16, Config.crcOff]
  have h8 : (buildPacket cmd sub hdr pay).1[8] = (buildPacket cmd sub hdr pay).2.extractLsb' 8 8 := by
    simp [buildPacket, placeBytes_getElem, le16, Config.crcOff]
  rw [h7, h8]
  exact le16_append _

/-- A built packet has the layout of rule R121. -/
theorem buildPacket_layout (cmd sub : Byte) (hdr : Option Word) (pay : List Byte) :
    PacketLayout (buildPacket cmd sub hdr pay).1 cmd sub hdr pay where
  reportId := by rw [buildPacket_getElem _ _ _ _ _ _ (by decide), packetBody_getElem]; rfl
  command := by rw [buildPacket_getElem _ _ _ _ _ _ (by decide), packetBody_getElem]; rfl
  subCommand := by rw [buildPacket_getElem _ _ _ _ _ _ (by decide), packetBody_getElem]; rfl
  header := by
    iterate 4 rw [buildPacket_getElem _ _ _ _ _ _ (by decide), packetBody_getElem]
    exact le32_append _
  crc := buildPacket_crcValid _ _ _ _
  payload := by
    intro i hi
    rw [Vector.getElem?_eq_getElem (show 9 + i < 65 by omega), buildPacket_getElem _ _ _ _ _ _ (by omega),
      packetBody_getElem, if_pos (by omega), Nat.add_sub_cancel_left]

/-- Byte 0 of a built packet is zero (rule R122). -/
@[simp] theorem buildPacket_reportId (cmd sub : Byte) (hdr : Option Word) (pay : List Byte) :
    (buildPacket cmd sub hdr pay).1[0] = 0 := (buildPacket_layout cmd sub hdr pay).reportId

@[simp] theorem setPacket_eq (s : State) (a len : Nat) :
    setPacket s a len = buildPacket s.ldCmd s.setSub (some (hdrWord a len)) (s.imgBytes a len) := rfl

@[simp] theorem savePacket_eq (s : State) : savePacket s = buildPacket s.ldCmd s.saveSub none [] := rfl

end Sys2Proof.Machine
end

