-- ==== Sys2Proof/Laws/Commands.lean ====
section
/-! SUPPORT. The laws of the commands: what the payload operand is, what each command's DECODE step does, and everything
a command can do. -/

namespace Sys2Proof.Machine

variable {s t : State} {i : Instr}

/-- BUSY reads 0 exactly in phase IDLE (rule R24). -/
@[simp] theorem busy_eq_false_iff : s.busy = false ↔ s.eph = .idle := by simp [State.busy]

@[simp] theorem busy_eq_true_iff : s.busy = true ↔ s.eph ≠ .idle := by simp [State.busy]

/-- What a legal `P_CHUNK` is (rule R7). -/
theorem chunkLegal_iff (p : Params) : p.chunkLegal = true ↔ 1 ≤ p.chunk ∧ p.chunk ≤ 56 := by
  simp [Params.chunkLegal, Config.payCap]

/-- What a legal `P_IMG_CAP` is (rule R7). -/
theorem imgCapLegal_iff (p : Params) :
    p.imgCapLegal = true ↔ p.imgCap % 4 = 0 ∧ 4 ≤ p.imgCap ∧ p.imgCap ≤ 2 ^ 24 := by
  simp [Params.imgCapLegal, and_assoc]

/-- What legal parameters are (rule R7). -/
theorem params_wellFormed_iff (s : State) :
    s.params.wellFormed = true ↔
      (1 ≤ s.chunk.toNat ∧ s.chunk.toNat ≤ 56) ∧
        (s.imgCap.toNat % 4 = 0 ∧ 4 ≤ s.imgCap.toNat ∧ s.imgCap.toNat ≤ 2 ^ 24) := by
  rw [Params.wellFormed, Bool.and_eq_true, chunkLegal_iff, imgCapLegal_iff]
  rfl

/-- The payload of a legal length (rule R28). -/
theorem payloadOperand_of_le (h : s.plen.toNat ≤ 56) :
    payloadOperand s = some (s.pay.toList.take s.plen.toNat) := if_pos h

/-- A payload that is too long is never cut (rule R132). -/
theorem payloadOperand_of_gt (h : 56 < s.plen.toNat) : payloadOperand s = none := if_neg (Nat.not_le.2 h)

theorem execCrcPayload_of_le (h : s.plen.toNat ≤ 56) :
    execCrcPayload s = .next (finish { s with crc := crcFold s.crc (s.pay.toList.take s.plen.toNat) }) := by
  rw [execCrcPayload, payloadOperand_of_le h]

theorem execCrcPayload_of_gt (h : 56 < s.plen.toNat) : execCrcPayload s = .next (raiseError .length s) := by
  rw [execCrcPayload, payloadOperand_of_gt h]

theorem execPktBuild_of_le (a b : Byte) (hd : Bool) (h : s.plen.toNat ≤ 56) :
    execPktBuild a b hd s = .next (finish (storePacket
      (buildPacket a b (headerOperand hd s) (s.pay.toList.take s.plen.toNat)) s)) := by
  rw [execPktBuild, payloadOperand_of_le h]

theorem execPktBuild_of_gt (a b : Byte) (hd : Bool) (h : 56 < s.plen.toNat) :
    execPktBuild a b hd s = .next (raiseError .length s) := by
  rw [execPktBuild, payloadOperand_of_gt h]

theorem execPktBuildSend_of_le (a b : Byte) (hd : Bool) (h : s.plen.toNat ≤ 56) :
    execPktBuildSend a b hd s = .next { storePacket
      (buildPacket a b (headerOperand hd s) (s.pay.toList.take s.plen.toNat)) s with eph := .emit .final } := by
  rw [execPktBuildSend, payloadOperand_of_le h]

theorem execPktBuildSend_of_gt (a b : Byte) (hd : Bool) (h : 56 < s.plen.toNat) :
    execPktBuildSend a b hd s = .next (raiseError .length s) := by
  rw [execPktBuildSend, payloadOperand_of_gt h]

theorem execSeqTransmit_of_le (h : s.imgLen.toNat ≤ s.imgCap.toNat) :
    execSeqTransmit s = .next { s with seqAddr := 0, eph := .seq } := if_neg (by omega)

theorem execSeqTransmit_of_gt (h : s.imgCap.toNat < s.imgLen.toNat) :
    execSeqTransmit s = .next (raiseError .config s) := if_pos h

/-- Everything a command's DECODE step can do: end with an error and nothing else (rule R164); end with `finish()`
(rule R163); offer a packet; start the sequencer. -/
inductive CommandEffect (s : State) : Instr → State → Prop
  | error (i : Instr) (code : ErrCode) (hc : code = .length ∨ code = .config) :
      CommandEffect s i (raiseError code s)
  | finished (i : Instr) (c : Half) (p : Packet) (hp : p = s.pkt ∨ p[0] = 0) :
      CommandEffect s i (finish { s with crc := c, pkt := p })
  | cleared : CommandEffect s .imgClear (finish { s with img := Memory.zeros s.imgCap.toNat })
  | offered : CommandEffect s .pktSend { s with eph := .emit .final }
  | builtAndOffered (a b : Byte) (hd : Bool) (pay : List Byte) :
      CommandEffect s (.pktBuildSend a b hd)
        { storePacket (buildPacket a b (headerOperand hd s) pay) s with eph := .emit .final }
  | started (h : s.imgLen.toNat ≤ s.imgCap.toNat) :
      CommandEffect s .seqTransmit { s with seqAddr := 0, eph := .seq }

/-- Every command answers a next state, and its effect is one of those. -/
theorem exec_effect (i : Instr) (s : State) : ∃ t, exec i s = .next t ∧ CommandEffect s i t := by
  cases i with
  | nop => exact ⟨_, rfl, .finished _ s.crc s.pkt (.inl rfl)⟩
  | crcInit => exact ⟨_, rfl, .finished _ _ s.pkt (.inl rfl)⟩
  | crcByte a => exact ⟨_, rfl, .finished _ _ s.pkt (.inl rfl)⟩
  | crcPayload =>
    rcases Nat.lt_or_ge 56 s.plen.toNat with hp | hp
    · exact ⟨_, execCrcPayload_of_gt hp, .error _ _ (.inl rfl)⟩
    · exact ⟨_, execCrcPayload_of_le hp, .finished _ _ s.pkt (.inl rfl)⟩
  | crcPkt => exact ⟨_, rfl, .finished _ _ s.pkt (.inl rfl)⟩
  | pktClear => exact ⟨_, rfl, .finished _ s.crc _ (.inr (zeroPacket_getElem 0 (by decide)))⟩
  | pktBuild a b hd =>
    rcases Nat.lt_or_ge 56 s.plen.toNat with hp | hp
    · exact ⟨_, execPktBuild_of_gt a b hd hp, .error _ _ (.inl rfl)⟩
    · exact ⟨_, execPktBuild_of_le a b hd hp, .finished _ _ _ (.inr (buildPacket_reportId _ _ _ _))⟩
  | pktSend => exact ⟨_, rfl, .offered⟩
  | pktBuildSend a b hd =>
    rcases Nat.lt_or_ge 56 s.plen.toNat with hp | hp
    · exact ⟨_, execPktBuildSend_of_gt a b hd hp, .error _ _ (.inl rfl)⟩
    · exact ⟨_, execPktBuildSend_of_le a b hd hp, .builtAndOffered a b hd _⟩
  | seqTransmit =>
    rcases Nat.lt_or_ge s.imgCap.toNat s.imgLen.toNat with hp | hp
    · exact ⟨_, execSeqTransmit_of_gt hp, .error _ _ (.inr rfl)⟩
    · exact ⟨_, execSeqTransmit_of_le hp, .started hp⟩
  | imgClear => exact ⟨_, rfl, .cleared⟩

/-- The inversion of `exec`. -/
theorem exec_cases (h : exec i s = .next t) : CommandEffect s i t := by
  obtain ⟨u, hu, he⟩ := exec_effect i s
  rw [h] at hu
  cases hu
  exact he

end Sys2Proof.Machine
end

