-- ==== Sys2Proof/Laws/Bus.lean ====
section
/-! SUPPORT. The laws of the host bus: which accesses are admitted, and everything a host write can do. -/

namespace Sys2Proof.Machine

variable {s t : State}

/-- The buffer windows of the map (rule R52). -/
theorem bufferAt_isSome_iff (cap off : Nat) : (bufferAt cap off).isSome = true ↔ InBufferWindow cap off := by
  unfold bufferAt InBufferWindow imgBase
  split_ifs <;> simp <;> omega

/-- A place in the image window (rule R52). -/
theorem bufferAt_eq_img {cap off i : Nat} (h : bufferAt cap off = some (.img i)) :
    off = imgBase + i ∧ i < cap := by
  unfold bufferAt at h
  split_ifs at h with h₁ h₂ h₃ <;> simp at h
  omega

/-- A place in the PAY window (rule R52). -/
theorem bufferAt_eq_pay {cap off i : Nat} (h : bufferAt cap off = some (.pay i)) : off = 0x040 + i ∧ i < 56 := by
  unfold bufferAt at h
  split_ifs at h with h₁ h₂ h₃ <;> simp at h
  omega

/-- The registers of the map: the twelve aligned offsets below 0x030 (rule R52). -/
theorem registerAt_isSome_iff {off : Nat} (ha : off % 4 = 0) : (registerAt off).isSome = true ↔ off < 0x030 := by
  constructor
  · intro h
    by_contra hn
    rw [registerAt] at h
    · exact absurd h (by simp)
    all_goals intro hk; omega
  · intro h
    have : off ∈ [0x000, 0x004, 0x008, 0x00C, 0x010, 0x014, 0x018, 0x01C, 0x020, 0x024, 0x028, 0x02C] := by
      simp; omega
    revert this
    simp only [List.mem_cons, List.not_mem_nil, or_false]
    rintro (rfl | rfl | rfl | rfl | rfl | rfl | rfl | rfl | rfl | rfl | rfl | rfl) <;> rfl

/-- The bus admits exactly the accesses of the map (rules R51 to R54, R57). -/
theorem busTarget_isSome_iff (s : State) (off : Word) (width : Nat) :
    (busTarget s off width).isSome = true ↔ Admitted s.imgCap.toNat off.toNat width := by
  unfold busTarget Admitted
  rw [← bufferAt_isSome_iff]
  by_cases h8 : width = 8
  · simp [h8]
  · by_cases h32 : width = 32 ∧ off.toNat % 4 = 0
    · rw [if_neg h8, if_pos h32]
      have hr := registerAt_isSome_iff h32.2
      cases hreg : registerAt off.toNat with
      | some r => rw [hreg] at hr; simp [h32, hr.1 rfl]
      | none =>
        rw [hreg] at hr
        have : ¬off.toNat < 0x030 := fun h => by simpa using hr.2 h
        simp [h32, this]
    · rw [if_neg h8, if_neg h32]
      simp only [Option.isSome_none, Bool.false_eq_true, false_iff]
      tauto

/-- An aligned 32-bit access to a register's offset reaches it (rule R52). -/
theorem busTarget_register {off : Word} {r : Register} (hr : registerAt off.toNat = some r) (ha : off.toNat % 4 = 0) :
    busTarget s off 32 = some (.register r) := by
  rw [busTarget, if_neg (by decide), if_pos ⟨rfl, ha⟩, hr]

/-- A read of a register (rule R160). -/
theorem busRead_register {off : Word} {r : Register} (hr : registerAt off.toNat = some r) (ha : off.toNat % 4 = 0) :
    busRead s off 32 = some (readRegister s r) := by
  rw [busRead, busTarget_register hr ha]; rfl

/-- A write to a register (rule R160). -/
theorem busWrite_register {off v : Word} {r : Register} (hr : registerAt off.toNat = some r) (ha : off.toNat % 4 = 0) :
    busWrite s off 32 v = some (writeRegister v s r) := by
  rw [busWrite, busTarget_register hr ha]; rfl

/-- An access to a place in a buffer window reaches it (rule R53). -/
theorem busTarget_buffer {off : Word} {width : Nat} {b : BufferPlace}
    (hb : bufferAt s.imgCap.toNat off.toNat = some b) (hw : width = 8 ∨ width = 32 ∧ off.toNat % 4 = 0) :
    busTarget s off width = some (.buffer b) := by
  rcases hw with rfl | ⟨rfl, ha⟩
  · rw [busTarget, if_pos rfl, hb]; rfl
  · rw [busTarget, if_neg (by decide), if_pos ⟨rfl, ha⟩]
    have hi : InBufferWindow s.imgCap.toNat off.toNat := (bufferAt_isSome_iff _ _).1 (by rw [hb]; rfl)
    have hr := (registerAt_isSome_iff ha).not.2 (by unfold InBufferWindow at hi; omega)
    rw [Option.not_isSome_iff_eq_none.1 hr, hb]; rfl

/-- A 32-bit access to the image starts at a multiple of four (rule R53). -/
theorem busTarget_eq_img {off : Word} {width i : Nat} (h : busTarget s off width = some (.buffer (.img i))) :
    off.toNat = imgBase + i ∧ i < s.imgCap.toNat ∧ (width = 8 ∨ width = 32 ∧ i % 4 = 0) := by
  unfold busTarget at h
  split_ifs at h with h8 h32
  · obtain ⟨b, hb, hbt⟩ := Option.map_eq_some_iff.1 h
    cases hbt
    have := bufferAt_eq_img hb
    exact ⟨this.1, this.2, .inl h8⟩
  · split at h
    · cases h
    · obtain ⟨b, hb, hbt⟩ := Option.map_eq_some_iff.1 h
      cases hbt
      have := bufferAt_eq_img hb
      refine ⟨this.1, this.2, .inr ⟨h32.1, ?_⟩⟩
      have h4 := h32.2
      rw [this.1] at h4
      unfold imgBase at h4
      omega

/-- The bytes a write stores are one or four (rule R56). -/
theorem storedBytes_length {width : Nat} (v : Word) (h : width = 8 ∨ width = 32) :
    (storedBytes width v).length = width / 8 := by
  rcases h with rfl | rfl <;> rfl

/-- An operand write: the BUSY error while BUSY, else the store (rules R59, R184). -/
theorem operandWrite_cases (store s : State) :
    (s.eph ≠ .idle ∧ operandWrite store s = recordError .busy s) ∨ (s.eph = .idle ∧ operandWrite store s = store) := by
  unfold operandWrite
  by_cases h : s.eph = .idle
  · exact .inr ⟨h, if_neg (by simp [h])⟩
  · exact .inl ⟨h, if_pos (by simp [h])⟩

/-- Everything a host write can do (rule R160): nothing; clear STATUS bits; store IEN; be refused with the BUSY error
while BUSY; or, while idle, submit a command or store one operand. -/
inductive WriteEffect (s : State) (off : Word) (width : Nat) (v : Word) : State → Prop
  | ignored : WriteEffect s off width v s
  | status : WriteEffect s off width v (writeStatus v s)
  | ien : WriteEffect s off width v (writeIen v s)
  | refused (h : s.eph ≠ .idle) : WriteEffect s off width v (recordError .busy s)
  | accepted (h : s.eph = .idle) : WriteEffect s off width v (acceptCommand v s)
  | crc (h : s.eph = .idle) (x : Half) : WriteEffect s off width v { s with crc := x }
  | hdr (h : s.eph = .idle) (x : Word) : WriteEffect s off width v { s with hdr := x }
  | plen (h : s.eph = .idle) (x : Byte) : WriteEffect s off width v { s with plen := x }
  | imgLen (h : s.eph = .idle) (x : BitVec 25) : WriteEffect s off width v { s with imgLen := x }
  | seqCodes (h : s.eph = .idle) (x : BitVec 24) : WriteEffect s off width v { s with seqCodes := x }
  | pay (h : s.eph = .idle) (x : Payload) : WriteEffect s off width v { s with pay := x }
  | img (h : s.eph = .idle) (i : Nat) (hi : busTarget s off width = some (.buffer (.img i))) :
      WriteEffect s off width v { s with img := s.img.writeBytes i (storedBytes width v) }

/-- The inversion of `busWrite`. -/
theorem busWrite_cases {off v : Word} {width : Nat} (h : busWrite s off width v = some t) :
    WriteEffect s off width v t := by
  obtain ⟨tg, htg, rfl⟩ := Option.map_eq_some_iff.1 h
  have op : ∀ store, (s.eph = .idle → WriteEffect s off width v store) →
      WriteEffect s off width v (operandWrite store s) := fun store hs => by
    rcases operandWrite_cases store s with ⟨hb, he⟩ | ⟨hi, he⟩ <;> rw [he]
    · exact .refused hb
    · exact hs hi
  cases tg with
  | register r =>
    cases r with
    | cmd => exact op (acceptCommand v s) .accepted
    | status => exact .status
    | ien => exact .ien
    | crc => exact op _ fun hi => .crc hi _
    | hdr => exact op _ fun hi => .hdr hi _
    | plen => exact op _ fun hi => .plen hi _
    | imgLen => exact op _ fun hi => .imgLen hi _
    | seqCodes => exact op _ fun hi => .seqCodes hi _
    | seqAddr => exact .ignored
    | pktCount => exact .ignored
    | chunk => exact .ignored
    | imgCap => exact .ignored
  | buffer b =>
    cases b with
    | pay i => exact op _ fun hi => .pay hi _
    | pkt i => exact .ignored
    | img i => exact op _ fun hi => .img hi i htg

end Sys2Proof.Machine
end

