-- ==== Sys2Proof/Laws/Step.lean ====
section
/-! SUPPORT. What one step of the machine can do, said once: its inversion by turn, and the encodings' small lemmas. -/

namespace Sys2Proof.Machine

variable {s t : State}

@[simp] theorem nextTurn_cons (s : State) (x : Turn) (xs : List Turn) (h : s.schedule = x :: xs) :
    s.nextTurn = x := by simp [State.nextTurn, h]

/-- A read is answered exactly where the bus admits it. -/
theorem busRead_isSome_iff (s : State) (off : Word) (width : Nat) :
    (busRead s off width).isSome = true ↔ Admitted s.imgCap.toNat off.toNat width := by
  rw [← busTarget_isSome_iff, busRead, Option.isSome_map]

/-- A write is answered exactly where the bus admits it. -/
theorem busWrite_isSome_iff (s : State) (off : Word) (width : Nat) (v : Word) :
    (busWrite s off width v).isSome = true ↔ Admitted s.imgCap.toNat off.toNat width := by
  rw [← busTarget_isSome_iff, busWrite, Option.isSome_map]

/-- STATUS bit 0 is BUSY (rule R24). -/
@[simp] theorem statusWord_busy (s : State) : s.statusWord.getLsbD 0 = s.busy := by
  rw [State.statusWord, BitVec.getLsbD_append]
  simp

/-- What one poll of WAIT does (rule R89). -/
theorem pollStatus_eq (rest : List HostOp) (s : State) :
    pollStatus rest s =
      recordRead 0x004 32 s.statusWord { s with program := if s.busy then s.program else rest } := by
  unfold pollStatus
  simp only [statusWord_busy]
  cases s.busy <;> rfl

/-- Everything the host's step can do (rules R89, R160): nothing, when its program has ended; a read, which changes only
the host's own record; a write; a poll of STATUS. -/
inductive HostEffect (s : State) : State → Prop
  | ended (h : s.program = []) : HostEffect s s
  | read (off v : Word) (width : Nat) (rest : List HostOp)
      (h : s.program = .access (.read off width) :: rest)
      (hv : busRead { s with program := rest } off width = some v) :
      HostEffect s (recordRead off width v { s with program := rest })
  | wrote (off v : Word) (width : Nat) (rest : List HostOp) (t : State)
      (h : s.program = .access (.write off width v) :: rest)
      (ht : WriteEffect { s with program := rest } off width v t) : HostEffect s t
  | polled (rest : List HostOp) (h : s.program = .wait :: rest) :
      HostEffect s (recordRead 0x004 32 s.statusWord { s with program := if s.busy then s.program else rest })

/-- The inversion of `hostTurn`. -/
theorem hostTurn_cases (h : hostTurn s = .next t) : HostEffect s t := by
  unfold hostTurn at h
  split at h
  · cases h; exact .ended ‹_›
  · rename_i a rest hp
    cases a with
    | read off width =>
      simp only [hostAccess] at h
      split at h
      · cases h; exact .read off _ width rest hp ‹_›
      · cases h
    | write off width v =>
      simp only [hostAccess] at h
      split at h
      · cases h; exact .wrote off v width rest _ hp (busWrite_cases ‹_›)
      · cases h
  · rename_i rest hp
    cases h
    rw [pollStatus_eq]
    exact .polled rest hp

/-- What the host's step leaves alone, whatever it does. -/
theorem hostEffect_frame (h : HostEffect s t) :
    t.out = s.out ∧ t.pktCount = s.pktCount ∧ t.chunk = s.chunk ∧ t.imgCap = s.imgCap ∧ t.pkt = s.pkt ∧
      t.seqAddr = s.seqAddr ∧ t.schedule = s.schedule ∧ t.resets = s.resets := by
  cases h with
  | ended => simp
  | read => simp
  | polled => simp
  | wrote off width v rest t h ht => cases ht <;> simp_all

/-- What it leaves alone besides while the engine is busy (rule R59). -/
theorem hostEffect_busy_frame (h : HostEffect s t) (hb : s.eph ≠ .idle) :
    t.eph = s.eph ∧ t.latch = s.latch ∧ t.crc = s.crc ∧ t.hdr = s.hdr ∧ t.plen = s.plen ∧ t.imgLen = s.imgLen ∧
      t.seqCodes = s.seqCodes ∧ t.pay = s.pay ∧ t.img = s.img := by
  cases h with
  | ended => simp
  | read => simp
  | polled => simp
  | wrote off width v rest t h ht => cases ht <;> simp_all

/-- Everything one step can do, in the state `s` with its turn taken off the schedule (rule R70). -/
inductive TurnEffect (s : State) : Turn → State → Prop
  | host (t : State) (h : HostEffect s t) : TurnEffect s .host t
  | waiting (x : Turn) (hx : x = .engine ∨ ∃ o, x = .sink o) : TurnEffect s x s
  | command (i : Instr) (t : State) (hp : s.eph = .decode) (hd : decode s.latch = .ok i) (h : CommandEffect s i t) :
      TurnEffect s .engine t
  | illegal (e : DecodeError) (hp : s.eph = .decode) (hd : decode s.latch = .error e) :
      TurnEffect s .engine (raiseError .illegal s)
  | seqSet (hp : s.eph = .seq) (h : s.seqAddr.toNat < s.imgLen.toNat) : TurnEffect s .engine (seqSetStep s)
  | seqSave (hp : s.eph = .seq) (h : s.imgLen.toNat ≤ s.seqAddr.toNat) : TurnEffect s .engine (seqSaveStep s)
  | emitted (k : AfterEmit) (o : SinkOutcome) (hp : s.eph = .emit k) : TurnEffect s (.sink o) (emission k o s)
  | reset : TurnEffect s .reset (resetTurn s)

/-- The inversion of `takeTurn`. -/
theorem takeTurn_cases {x : Turn} (h : takeTurn x s = .next t) : TurnEffect s x t := by
  cases x with
  | host => exact .host t (hostTurn_cases h)
  | engine =>
    simp only [takeTurn, engineTurn] at h
    split at h
    · unfold decodeStep at h
      split at h
      · exact .command _ t ‹_› ‹_› (exec_cases h)
      · cases h; exact .illegal _ ‹_› ‹_›
    · cases h
      unfold seqStep
      split
      · exact .seqSet ‹_› ‹_›
      · exact .seqSave ‹_› (by omega)
    · cases h; exact .waiting _ (.inl rfl)
    · cases h; exact .waiting _ (.inl rfl)
  | sink o =>
    simp only [takeTurn, Host.Outcome.next.injEq] at h
    subst h
    unfold sinkTurn
    split
    · exact .emitted _ o ‹_›
    all_goals exact .waiting _ (.inr ⟨o, rfl⟩)
  | reset => cases h; exact .reset

/-- The inversion of `step`. -/
theorem step_cases (h : step s = .next t) : TurnEffect s.popTurn s.nextTurn t := takeTurn_cases h

/-- A turn of the host. -/
theorem step_host (ht : s.nextTurn = .host) : step s = hostTurn s.popTurn := by rw [step, ht]; rfl

/-- A turn of the engine in phase DECODE, a command in LATCH (rule R162). -/
theorem step_command {i : Instr} (ht : s.nextTurn = .engine) (hp : s.eph = .decode) (hd : decode s.latch = .ok i) :
    step s = exec i s.popTurn := by
  rw [step, ht, takeTurn, engineTurn, popTurn_eph, hp]
  simp only [decodeStep, popTurn_latch, hd]

/-- A turn of the engine in phase DECODE, an illegal word in LATCH (rule R162). -/
theorem step_illegal {e : DecodeError} (ht : s.nextTurn = .engine) (hp : s.eph = .decode)
    (hd : decode s.latch = .error e) : step s = .next (raiseError .illegal s.popTurn) := by
  rw [step, ht, takeTurn, engineTurn, popTurn_eph, hp]
  simp only [decodeStep, popTurn_latch, hd]

/-- A turn of the engine in phase SEQ (rules R146, R147). -/
theorem step_seq (ht : s.nextTurn = .engine) (hp : s.eph = .seq) : step s = .next (seqStep s.popTurn) := by
  rw [step, ht, takeTurn, engineTurn, popTurn_eph, hp]

/-- A turn of the sink in phase EMIT(k) (rule R169). -/
theorem step_emit {o : SinkOutcome} {k : AfterEmit} (ht : s.nextTurn = .sink o) (hp : s.eph = .emit k) :
    step s = .next (emission k o s.popTurn) := by
  rw [step, ht, takeTurn, sinkTurn, popTurn_eph, hp]

/-- A turn of reset (rule R200). -/
theorem step_reset (ht : s.nextTurn = .reset) : step s = .next (resetTurn s.popTurn) := by rw [step, ht]; rfl

@[simp] theorem run_zero (s : State) : run 0 s = .next s := rfl

/-- A run begins with its first step. -/
theorem run_succ {n : Nat} (h : step s = .next t) : run (n + 1) s = run n t := by rw [run, h]

/-- The first step of a run that ends in a next state. -/
theorem run_succ_cases {n : Nat} (h : run (n + 1) s = .next t) : ∃ u, step s = .next u ∧ run n u = .next t := by
  rw [run] at h
  split at h
  · exact ⟨_, ‹_›, h⟩
  all_goals cases h

/-- The machine refuses nothing. -/
theorem step_not_refused (s : State) (r : Refusal) : step s ≠ .refused r := by
  intro h
  unfold step takeTurn at h
  split at h
  · unfold hostTurn hostAccess at h
    repeat' split at h
    all_goals cases h
  · unfold engineTurn decodeStep at h
    repeat' split at h
    all_goals try cases h
    rename_i i _
    obtain ⟨u, hu, -⟩ := exec_effect i s.popTurn
    rw [hu] at h
    cases h
  all_goals cases h

end Sys2Proof.Machine
end

