-- ==== Sys2Proof/Laws/Encoding.lean ====
section
/-! SUPPORT. The fields of an encoded word (rule R80). -/

namespace Sys2Proof

variable (op a b : Byte) (h : Bool)

/-- The bits of a command word, field by field (rule R80). -/
theorem commandWord_getLsbD (i : Nat) :
    (commandWord op a b h).getLsbD i =
      if i < 8 then op.getLsbD i
      else if i < 16 then a.getLsbD (i - 8)
      else if i < 24 then b.getLsbD (i - 16)
      else decide (i = 24) && h := by
  unfold commandWord
  rw [BitVec.getLsbD_append, BitVec.getLsbD_append, BitVec.getLsbD_append, BitVec.getLsbD_append]
  by_cases h8 : i < 8
  · simp [h8]
  · by_cases h16 : i < 16
    · simp [h8, h16, show i - 8 < 8 by omega]
    · by_cases h24 : i < 24
      · simp [h8, h16, h24, show ¬(i - 8 < 8) by omega, show i - 8 - 8 = i - 16 by omega, show i - 16 < 8 by omega]
      · by_cases h25 : i = 24
        · subst h25; simp
        · simp [h8, h16, h24, h25, show ¬(i - 8 < 8) by omega, show ¬(i - 8 - 8 < 8) by omega,
            show ¬(i - 8 - 8 - 8 = 0) by omega]

@[simp] theorem opField_commandWord : opField (commandWord op a b h) = op := by
  apply BitVec.eq_of_getLsbD_eq
  intro i hi
  simp [opField, commandWord_getLsbD, hi]

@[simp] theorem aField_commandWord : aField (commandWord op a b h) = a := by
  apply BitVec.eq_of_getLsbD_eq
  intro i hi
  simp [aField, commandWord_getLsbD, hi, show 8 + i < 16 by omega]

@[simp] theorem bField_commandWord : bField (commandWord op a b h) = b := by
  apply BitVec.eq_of_getLsbD_eq
  intro i hi
  simp [bField, commandWord_getLsbD, hi, show ¬(16 + i < 8) by omega, show 16 + i < 24 by omega]

@[simp] theorem hField_commandWord : hField (commandWord op a b h) = h := by
  rw [hField, commandWord_getLsbD]
  simp

@[simp] theorem rsvField_commandWord : rsvField (commandWord op a b h) = 0 := by
  apply BitVec.eq_of_getLsbD_eq
  intro i hi
  simp [rsvField, commandWord_getLsbD, show ¬(25 + i < 8) by omega, show ¬(25 + i < 16) by omega,
    show ¬(25 + i < 24) by omega, show ¬(25 + i = 24) by omega]

/-- A word with RSV zero decodes by its OP value (rule R85). -/
theorem decode_of_rsv_zero {w : Word} (hw : rsvField w = 0) : decode w = decodeOp w := if_pos hw

/-- A word with RSV not zero is illegal (rule R85). -/
theorem decode_of_rsv_ne_zero {w : Word} (hw : rsvField w ≠ 0) : decode w = .error (.rsvNonzero (rsvField w)) :=
  if_neg hw

/-- OP is the word modulo 256 (rule R80). -/
theorem opField_toNat (w : Word) : (opField w).toNat = w.toNat % 256 := by
  simp [opField, BitVec.extractLsb'_toNat]

/-- RSV is the word divided by 2^25 (rule R80). -/
theorem rsvField_toNat (w : Word) : (rsvField w).toNat = w.toNat / 2 ^ 25 := by
  have := w.isLt
  simp [rsvField, BitVec.extractLsb'_toNat, Nat.shiftRight_eq_div_pow]
  omega

end Sys2Proof
end

