-- ==== Sys2Proof/Laws/PerInstr.lean ====
section
/-! SUPPORT. Statements made per command: every encoded command is a legal word (rules R85, R88). -/

namespace Sys2Proof.Laws.EncodeLegal

/-- The word of a command has RSV zero and a legal OP value (rule R85). -/
def Statement (i : Instr) : Prop := wordWellFormed (encode i) = true

/-- A command word is legal when its OP value is. -/
theorem of_op (op a b : Byte) (h : Bool) (ho : op.toNat ∈ legalOps) :
    wordWellFormed (commandWord op a b h) = true := by
  have h₁ := opField_toNat (commandWord op a b h)
  have h₂ := rsvField_toNat (commandWord op a b h)
  rw [opField_commandWord] at h₁
  rw [rsvField_commandWord] at h₂
  simp only [wordWellFormed, ← h₁, ← h₂, ho]
  rfl

theorem nop : Statement .nop := of_op _ _ _ _ (by decide)
theorem crcInit : Statement .crcInit := of_op _ _ _ _ (by decide)
theorem crcByte (a : Byte) : Statement (.crcByte a) := of_op _ _ _ _ (by decide)
theorem crcPayload : Statement .crcPayload := of_op _ _ _ _ (by decide)
theorem crcPkt : Statement .crcPkt := of_op _ _ _ _ (by decide)
theorem pktClear : Statement .pktClear := of_op _ _ _ _ (by decide)
theorem pktBuild (a b : Byte) (h : Bool) : Statement (.pktBuild a b h) := of_op _ _ _ _ (by decide)
theorem pktSend : Statement .pktSend := of_op _ _ _ _ (by decide)
theorem pktBuildSend (a b : Byte) (h : Bool) : Statement (.pktBuildSend a b h) := of_op _ _ _ _ (by decide)
theorem seqTransmit : Statement .seqTransmit := of_op _ _ _ _ (by decide)
theorem imgClear : Statement .imgClear := of_op _ _ _ _ (by decide)

end Sys2Proof.Laws.EncodeLegal
end

