-- ==== Sys2Proof/Tests/Slice0.lean ====
section
/-! SUPPORT. The model's own tests. Expected values come from spec/95_test_vectors.md (V...) and from the encoding rules
R80, R83 and R90, never from the model. Then, for every statement with hypotheses, witnesses that meet them. -/

namespace Sys2Proof.Tests

/- Hundreds of kernel checks at once exhaust the checker's memory limit; one after another they are quick. -/
set_option Elab.async false

open Sys2Proof.Machine

/-! Small states and what a test looks at -/

/-- One field of the next state, if there is one. -/
def got {α : Type} (o : Host.Outcome State Fault Refusal) (f : State → α) : Option α :=
  match o with
  | .next t => some (f t)
  | .fault _ => none
  | .refused _ => none

/-- Whether the step is a BusError. -/
def isBusError (o : Host.Outcome State Fault Refusal) : Bool :=
  match o with
  | .next _ => false
  | .fault .busError => true
  | .refused _ => false

/-- The reference device after reset. -/
abbrev dev : State := State.reset

/-- A small device, P_CHUNK = 8 and P_IMG_CAP = 20, after reset (V34). -/
abbrev small : State := State.resetWith 8 20

/-- PAY with the given first bytes, the others zero. -/
def payOf (bytes : List Byte) : Payload := placeBytes (Vector.replicate 56 0) 0 bytes

/-- A packet with the given first bytes, the others zero. -/
def pktOf (bytes : List Byte) : Packet := placeBytes (Vector.replicate 65 0) 0 bytes

/-- The packet of V20. -/
def pktV20 : Packet := pktOf [0x00, 0x44, 0x00, 0x00, 0x00, 0x00, 0x00, 0xC5, 0x4D]

/-- The image of V34: IMG[i] = i + 1 for i = 0..19. -/
def imgV34 : Memory := (List.range 20).map fun i => (i, BitVec.ofNat 8 (i + 1))

/-- The small device of V34 with SEQ_TRANSMIT in LATCH, in phase SEQ, with `a` bytes packed. -/
def seqAt (a : BitVec 25) : State :=
  { small with
    latch := 0x00000020, eph := .seq, seqAddr := a, seqCodes := 0x332211, img := imgV34, schedule := [.engine] }

/-- The engine in EMIT(k), offering the packet of V20. -/
def emitting (k : AfterEmit) (turns : List Turn) : State :=
  { small with latch := 0x00004413, eph := .emit k, pkt := pktV20, schedule := turns }

/-- The device with a word accepted and awaiting its DECODE step. -/
def accepted (w : Word) : State := { small with latch := w, eph := .decode, schedule := [.engine] }

/-- The device whose host is about to make one access. -/
def hostMakes (a : HostAccess) (s : State) : State := { s with program := [.access a], schedule := [.host] }

/-! Well-formedness refuses what is ill formed (rules R7, R85) -/

theorem test_wellFormed_rsv_refused : wordWellFormed 0xFF00FF20 = false := by decide
theorem test_wellFormed_op_refused : wordWellFormed 0x00000005 = false := by decide
theorem test_wellFormed_word_admitted : wordWellFormed 0x01FFFF01 = true := by decide
theorem test_wellFormed_chunk_zero_refused : Params.wellFormed ⟨0, 528⟩ = false := by decide
theorem test_wellFormed_chunk_57_refused : Params.wellFormed ⟨57, 528⟩ = false := by decide
theorem test_wellFormed_cap_not_multiple_refused : Params.wellFormed ⟨56, 6⟩ = false := by decide
theorem test_wellFormed_cap_zero_refused : Params.wellFormed ⟨56, 0⟩ = false := by decide
theorem test_wellFormed_cap_large_refused : Params.wellFormed ⟨56, 2 ^ 24 + 4⟩ = false := by decide
theorem test_wellFormed_params_admitted :
    Params.wellFormed ⟨56, 528⟩ = true ∧ Params.wellFormed ⟨1, 4⟩ = true ∧ Params.wellFormed ⟨56, 2 ^ 24⟩ = true := by
  decide
theorem test_wellFormed_instr : (Instr.pktBuild 0xFF 0x00 true).wellFormed = true := by decide

/-! Decoding: words written out from rule R80's fields and rule R83's OP values -/

theorem test_decode_nop : decode 0x00000000 = .ok .nop := by decide
theorem test_decode_crc :
    decode 0x00000001 = .ok .crcInit ∧ decode 0x00003902 = .ok (.crcByte 0x39) ∧
    decode 0x00000003 = .ok .crcPayload ∧ decode 0x00000004 = .ok .crcPkt := by decide
theorem test_decode_pkt :
    decode 0x00000010 = .ok .pktClear ∧ decode 0x01BBAA11 = .ok (.pktBuild 0xAA 0xBB true) ∧
    decode 0x00000012 = .ok .pktSend ∧ decode 0x00BBAA13 = .ok (.pktBuildSend 0xAA 0xBB false) := by decide
theorem test_decode_seq : decode 0x00000020 = .ok .seqTransmit ∧ decode 0x00000021 = .ok .imgClear := by decide
theorem test_encode_bits :
    encode (.pktBuild 0xAA 0xBB true) = 0b0000000_1_10111011_10101010_00010001 ∧
    encode (.crcByte 0x39) = 0b0000000_0_00000000_00111001_00000010 := by decide
theorem test_decode_illegal :
    decode 0x00000014 = .error (.reservedOp 0x14) ∧ decode 0x00000022 = .error (.reservedOp 0x22) ∧
    decode 0x02000000 = .error (.rsvNonzero 0x01) ∧ decode 0x80000005 = .error (.rsvNonzero 0x40) := by decide
theorem test_decodeTableWord : decodeTableWord 32 0x00003102 = some (.crcByte 0x31) := by decide
theorem test_withFetchWord : got (step (dev.withFetchWord 32 0x00003102)) (·.crc) = some 0xC782 := by decide +kernel

/-! The checksum engine (V10 to V19f) -/

theorem test_checksum_V12_V14 : checksum [0xFF] = 0xFF00 ∧ checksum [0x31] = 0xC782 ∧ checksum [0x41] = 0xB915 := by
  decide +kernel
theorem test_checksum_V13 : checksum [0x01] = 0xF1D1 ∧ checksum [0x80] = 0x7078 := by decide +kernel
theorem test_checksum_V16 :
    checksum (List.replicate 64 0x00) = 0xD6DA ∧ checksum (List.replicate 64 0xFF) = 0xF154 := by decide +kernel
theorem test_checksum_V18 : checksum [0x31, 0x32, 0x33, 0x34, 0x35] = 0x4560 := by decide +kernel
theorem test_crcInit_V19 : got (exec .crcInit { dev with crc := 0x1234 }) (·.crc) = some 0xFFFF := by decide +kernel
theorem test_crcByte : got (exec (.crcByte 0x31) dev) (fun t => (t.crc, t.done)) = some (0xC782, true) := by
  decide +kernel
theorem test_crcPayload_V19b :
    got (exec .crcPayload { dev with plen := 56, pay := Vector.replicate 56 0xFF }) (·.crc) = some 0xE313 := by
  decide +kernel
theorem test_crcPayload_V19d :
    got (exec .crcPayload { dev with plen := 57 }) (fun t => (t.crc, t.statusWord)) = some (0xFFFF, 0x00000106) := by
  decide +kernel
theorem test_crcPkt_V19e : got (exec .crcPkt dev) (·.crc) = some 0xD6DA := by decide +kernel
theorem test_crcPkt_V19f : got (exec .crcPkt { dev with pkt := pktV20, crc := 0x1234 }) (·.crc) = some 0x4DC5 := by
  decide +kernel

/-! The packet builder (V20 to V28) -/

theorem test_pktBuild_V20 :
    got (exec (.pktBuild 0x44 0x00 false) dev) (fun t => (t.pkt, t.crc, t.pktCount)) = some (pktV20, 0x4DC5, 0) := by
  decide +kernel
theorem test_pktBuild_V24 :
    got (exec (.pktBuild 0x44 0x00 true) { dev with hdr := 0xDEADBEEF }) (·.pkt) =
      some (pktOf [0x00, 0x44, 0x00, 0xEF, 0xBE, 0xAD, 0xDE, 0x58, 0x83]) := by decide +kernel
theorem test_pktBuildSend_V21 :
    got (exec (.pktBuildSend 0x11 0x22 true) { dev with hdr := 0x03000010, plen := 3, pay := payOf [1, 2, 3] })
        (fun t => (t.pkt, t.crc, t.eph)) =
      some (pktOf [0x00, 0x11, 0x22, 0x10, 0x00, 0x00, 0x03, 0xFE, 0xC9, 1, 2, 3], 0xC9FE, .emit .final) := by
  decide +kernel
theorem test_pktBuildSend_V26 :
    got (exec (.pktBuildSend 0x01 0x02 false) { dev with plen := 57, pkt := pktV20 })
        (fun t => (t.pkt, t.crc, t.pktCount, t.statusWord)) = some (pktV20, 0xFFFF, 0, 0x00000106) := by decide +kernel
theorem test_pktClear_V27 :
    got (exec .pktClear { dev with pkt := pktV20 }) (·.pkt.toList) = some (List.replicate 65 0) := by decide +kernel
theorem test_pktSend_V28 :
    got (exec .pktSend { dev with pkt := pktV20 }) (fun t => (t.pkt, t.eph, t.out)) =
      some (pktV20, .emit .final, []) := by decide +kernel

/-! The sequencer (V31 to V37) -/

theorem test_chunks_V31 : chunks 57 56 = [(0, 56), (56, 1)] ∧ chunks 20 8 = [(0, 8), (8, 8), (16, 4)] := by
  decide +kernel
theorem test_seqTransmit_V35 :
    got (exec .seqTransmit { dev with imgLen := 529, seqAddr := 7 }) (fun t => (t.seqAddr, t.statusWord)) =
      some (7, 0x00000406) := by decide +kernel
theorem test_seqTransmit_starts :
    got (exec .seqTransmit { dev with seqAddr := 7 }) (fun t => (t.seqAddr, t.eph)) = some (0, .seq) := by
  decide +kernel
theorem test_seqSet_V34 :
    got (step (seqAt 16)) (fun t => (t.pkt, t.crc, t.seqAddr, t.eph)) =
      some (pktOf [0x00, 0x11, 0x22, 0x10, 0x00, 0x00, 0x04, 0xC2, 0x9A, 0x11, 0x12, 0x13, 0x14], 0x9AC2, 20,
        .emit .more) := by decide +kernel
theorem test_seqSave_V34 :
    got (step (seqAt 20)) (fun t => (t.pkt, t.crc, t.seqAddr, t.eph)) =
      some (pktOf [0x00, 0x11, 0x33, 0x00, 0x00, 0x00, 0x00, 0x22, 0x78], 0x7822, 20, .emit .final) := by decide +kernel
theorem test_imgClear_V37 :
    got (exec .imgClear small) (fun t => (busRead t 0x01000010 32, busRead t 0x01000000 8)) =
      some (some 0, some 0) := by decide +kernel
theorem test_imgClear_whole_capacity :
    got (exec .imgClear { small with imgLen := 4, img := imgV34 }) (·.imgByte 19) = some 0 := by decide +kernel

/-! Control, status and the interrupt (V40 to V57) -/

theorem test_nop_V40_accepted : (busWrite dev 0x000 32 0x00000000).map (·.statusWord) = some 0x00000001 := by
  decide +kernel
theorem test_nop_V40_done : got (exec .nop dev) (·.statusWord) = some 0x00000002 := by decide +kernel
theorem test_illegal_V41 :
    got (step (accepted 0xFF00FF20)) (fun t => (t.statusWord, busRead t 0x000 32)) =
      some (0x00000206, some 0xFF00FF20) := by decide +kernel
theorem test_unused_fields_V43 :
    got (step (accepted 0x01FFFF01)) (fun t => (t.crc, t.statusWord)) = some (0xFFFF, 0x00000002) := by decide +kernel
theorem test_busy_V44 :
    (busWrite (accepted 0x00004413) 0x000 32 0x00000000).map (fun t => (t.statusWord, t.latch)) =
      some (0x00000305, 0x00004413) := by decide +kernel
theorem test_busy_V45 :
    (busWrite (accepted 0x00004413) 0x014 32 5).map (fun t => (t.statusWord, t.plen)) = some (0x00000305, 0) := by
  decide +kernel
theorem test_emission_V36 :
    got (step (emitting .more [.sink .dropped])) (fun t => (t.statusWord, t.pktCount, t.eph, t.out)) =
      some (0x00000009, 1, .seq, [⟨pktV20, .dropped⟩]) := by decide +kernel
theorem test_emission_P2 :
    got (step (emitting .final [.sink .dropped])) (fun t => (t.statusWord, t.pktCount)) = some (0x0000000A, 1) := by
  decide +kernel
theorem test_status_V47 :
    (busWrite { dev with done := true, err := true, errcode := .busy } 0x004 32 0x4).map (·.statusWord) =
      some 0x00000002 := by decide +kernel
theorem test_status_V49 :
    (busWrite { dev with done := true, err := true, errcode := .config } 0x000 32 0x10).map (·.statusWord) =
      some 0x00000405 := by decide +kernel
theorem test_irq_V52_V57 :
    got (exec .nop { dev with ien := ⟨true, true, true⟩ }) (·.irq) = some true ∧
    got (exec .nop { dev with ien := ⟨false, true, false⟩ }) (·.irq) = some false := by decide +kernel
theorem test_irq_V51 :
    (busWrite { dev with ien := ⟨true, true, true⟩, done := true } 0x000 32 0).map (·.irq) = some false := by
  decide +kernel

/-! The host bus (V60 to V72) -/

theorem test_bus_V60_V61 :
    busRead dev 0x028 32 = some 0x00000038 ∧ busRead dev 0x02C 32 = some 0x00000210 ∧
    busRead dev 0x00C 32 = some 0x0000FFFF := by decide +kernel
theorem test_bus_V62 : (busWrite dev 0x00C 32 0xABCD1234).bind (busRead · 0x00C 32) = some 0x00001234 := by
  decide +kernel
theorem test_bus_V63 : (busWrite dev 0x014 32 0x00000139).bind (busRead · 0x014 32) = some 0x00000039 := by
  decide +kernel
theorem test_bus_V64 : (busWrite dev 0x01C 32 0xFF332211).bind (busRead · 0x01C 32) = some 0x00332211 := by
  decide +kernel
theorem test_bus_ien : (busWrite dev 0x008 32 0xFFFFFFFF).bind (busRead · 0x008 32) = some 0x0000000E := by
  decide +kernel
theorem test_bus_V66 : (busWrite dev 0x040 32 0x34333231).bind (busRead · 0x042 8) = some 0x33 := by decide +kernel
theorem test_bus_V67 :
    (busWrite { dev with pay := payOf [0x31, 0x32, 0x33, 0x34] } 0x041 8 0xAA).bind (busRead · 0x040 32) =
      some 0x3433AA31 := by decide +kernel
theorem test_bus_pay_read_while_busy :
    busRead { accepted 0x00004413 with pay := payOf [0x31, 0x32, 0x33, 0x34] } 0x042 8 = some 0x33 ∧
    busRead { accepted 0x00004413 with pay := payOf [0x31, 0x32, 0x33, 0x34] } 0x040 32 = some 0x34333231 := by
  decide +kernel
theorem test_bus_V68 :
    busRead { dev with pkt := pktV20 } 0x084 32 = some 0xC5000000 ∧
    busRead { dev with pkt := pktV20 } 0x088 32 = some 0x0000004D ∧
    busRead { dev with pkt := pktV20 } 0x0C0 32 = some 0 := by decide +kernel
theorem test_bus_V69 :
    busRead dev 0x002 32 = none ∧ busRead dev 0x004 8 = none ∧ busRead dev 0x030 32 = none ∧
    busRead dev 0x078 32 = none ∧ busRead dev 0x0C4 32 = none ∧ busRead dev 0x01000210 32 = none := by decide +kernel
theorem test_bus_V70 : isBusError (step (hostMakes (.read 0x040 16) dev)) = true := by decide +kernel
theorem test_bus_V71 : (busWrite dev 0x080 8 0x55).map (·.pkt.toList) = some (List.replicate 65 0) := by decide +kernel
theorem test_bus_V72 : (busWrite dev 0x0100020C 32 0x86FF0000).bind (busRead · 0x0100020E 8) = some 0xFF := by
  decide +kernel
theorem test_pseudo_R89 :
    (HostLine.seqSetup 0x11 0x22 0x33 0x210).expand =
      [.access (.write 0x01C 32 0x00332211), .access (.write 0x018 32 0x00000210)] ∧
    (HostLine.setPay 2 [0xAA, 0xBB]).expand =
      [.access (.write 0x042 8 0xAA), .access (.write 0x043 8 0xBB)] := by decide +kernel

/-! Witnesses: concrete states and operands that meet the hypotheses of the statements, each clause at the ends of its
range -/

/-- The device with a command in LATCH, awaiting its DECODE step, PLEN as given. -/
def decoding (w : Word) (n : Byte) : State := { accepted w with plen := n }

/-- The device whose engine has a whole SEQ_TRANSMIT of a 9-byte image with chunk size 8 before it: two Set packets and
the Save packet, the second dropped. -/
def transmitting : State :=
  { accepted 0x00000020 with
    imgLen := 9, schedule := transmitTurns [.delivered, .dropped, .delivered] ++ [.host] }

theorem witness_DecodeInvertsEncode :
    Instr.wellFormed .nop = true ∧ Instr.wellFormed .crcInit = true ∧ Instr.wellFormed (.crcByte 0xFF) = true ∧
    Instr.wellFormed .crcPayload = true ∧ Instr.wellFormed .crcPkt = true ∧ Instr.wellFormed .pktClear = true ∧
    Instr.wellFormed (.pktBuild 0x00 0xFF true) = true ∧ Instr.wellFormed .pktSend = true ∧
    Instr.wellFormed (.pktBuildSend 0xFF 0x00 false) = true ∧ Instr.wellFormed .seqTransmit = true ∧
    Instr.wellFormed .imgClear = true := by decide

theorem witness_LegalWordsDecodeOthersAreIllegal :
    ∀ n ∈ [0x02000000, 0xFE000000, 0x00000005, 0x0000000F, 0x00000014, 0x00000022, 0x000000FF],
      (accepted (BitVec.ofNat 32 n)).latch = BitVec.ofNat 32 n ∧ (accepted (BitVec.ofNat 32 n)).eph = .decode ∧
        wordWellFormed (BitVec.ofNat 32 n) = false := by decide +kernel

theorem witness_UnusedFieldsAreIgnored :
    (rsvField 0x01FFFF01 = 0 ∧ rsvField 0x00000001 = 0 ∧ opField 0x01FFFF01 = opField 0x00000001) ∧
    (opField 0x01FF3102 = opField 0x00003102 ∧ opField 0x00003102 = 0x02 ∧
      aField 0x01FF3102 = aField 0x00003102) ∧
    (opField 0x01221113 = 0x13 ∧ opField 0x01221111 = 0x11) ∧
    (got (exec .pktSend small) (·.eph)).isSome = true ∧ small.eph = .idle := by decide +kernel

theorem witness_StepRunsTheDecodedCommand :
    ∀ w ∈ [0x00000000, 0x00003102, 0x01221113, 0x00000021],
      (small.withFetchWord 32 w).nextTurn = .engine ∧ (small.withFetchWord 32 w).eph = .decode ∧
        (decode (small.withFetchWord 32 w).latch).toOption.isSome = true := by decide +kernel

theorem witness_OnlyABusErrorStopsTheMachine :
    isBusError (step (hostMakes (.read 0x002 32) small)) = true ∧
    isBusError (step (hostMakes (.write 0x004 8 0) small)) = true ∧
    isBusError (step (hostMakes (.read 0x077 8) small)) = false := by decide +kernel

theorem witness_ChecksumChains :
    (∀ y ∈ [[], [0x36, 0x37, 0x38, 0x39], List.replicate 56 (0xFF : Byte)],
      (BitVec.ofNat 8 y.length).toNat = y.length ∧ (payOf y).toList.take y.length = y ∧ y.length ≤ 56) ∧
    ({ small with crc := checksum [0x31] } : State).crc = checksum [0x31] := by decide +kernel

theorem witness_ChecksumDetectsOneWrongByte : (0x00 : Byte) ≠ 0x80 := by decide

/-- Words of every command with RSV zero and with RSV not zero, their unused fields filled. -/
theorem witness_OpMeans :
    ∀ op ∈ legalOps,
      opField (BitVec.ofNat 32 (0x01FFFF00 + op)) = BitVec.ofNat 8 op ∧
      rsvField (BitVec.ofNat 32 (0x01FFFF00 + op)) = 0 ∧
      opField (BitVec.ofNat 32 (0x02000000 + op)) = BitVec.ofNat 8 op ∧
      rsvField (BitVec.ofNat 32 (0x02000000 + op)) ≠ 0 := by decide

/-- PLEN at the ends of both ranges, for CrcPayloadResult, PktBuildResult, PktBuildSendResult, CrcPktAfterBuildAgrees and
the frames. -/
theorem witness_plen :
    ({ small with plen := 0 } : State).plen.toNat ≤ 56 ∧ ({ small with plen := 56 } : State).plen.toNat ≤ 56 ∧
    56 < ({ small with plen := 57 } : State).plen.toNat ∧ 56 < ({ small with plen := 255 } : State).plen.toNat := by
  decide

theorem witness_CrcPktAfterBuildAgrees :
    (got (exec (.pktBuild 0x44 0x00 false) { small with plen := 56 }) (fun t => got (exec .crcPkt t) (·.crc))).isSome =
      true := by decide +kernel

theorem witness_ChecksumCommandsFrame :
    ∀ i ∈ [Instr.nop, .crcInit, .crcByte 0x31, .crcPayload, .crcPkt], ∀ n ∈ [0, 56, 57],
      (got (exec i (decoding 0x00000003 (BitVec.ofNat 8 n))) (·.done)).isSome = true := by decide +kernel

theorem witness_PacketCommandsFrame :
    ∀ i ∈ [Instr.pktClear, .pktSend, .pktBuild 0x44 0x00 true, .pktBuildSend 0x44 0x00 false],
      ∀ n ∈ [0, 56, 57], (got (exec i (decoding 0x00000012 (BitVec.ofNat 8 n))) (·.done)).isSome = true := by decide +kernel

theorem witness_ChunkPlanCoversTheImageOnce :
    (1 ≤ 56 ∧ (chunks 0 56).length = 0) ∧ (1 ≤ 1 ∧ (chunks 3 1).length = 3) ∧
    (chunks 112 56).length = 2 ∧ (chunks 113 56).length = 3 := by decide +kernel

theorem witness_SeqTransmitStartsOrReportsConfig :
    ({ small with imgLen := 0 } : State).imgLen.toNat ≤ small.imgCap.toNat ∧
    ({ small with imgLen := 20 } : State).imgLen.toNat ≤ small.imgCap.toNat ∧
    small.imgCap.toNat < ({ small with imgLen := 21 } : State).imgLen.toNat := by decide

theorem witness_SeqStepBuildsTheNextSetPacket :
    ∀ n ∈ [0, 8, 16, 19], let s := seqAt (BitVec.ofNat 25 n)
      s.params.chunkLegal = true ∧ s.imgLen.toNat ≤ 2 ^ 24 ∧ s.eph = .seq ∧ s.seqAddr.toNat < s.imgLen.toNat := by decide +kernel

theorem witness_SeqStepBuildsTheSavePacket :
    (seqAt 20).eph = .seq ∧ (seqAt 20).imgLen.toNat ≤ (seqAt 20).seqAddr.toNat := by
  decide

theorem witness_TransmitEmitsTheWholeImageInOrder :
    transmitting.params.wellFormed = true ∧ transmitting.imgLen.toNat ≤ transmitting.imgCap.toNat ∧
    transmitting.eph = .decode ∧ decode transmitting.latch = .ok .seqTransmit ∧
    [SinkOutcome.delivered, .dropped, .delivered].length =
      chunkCount transmitting.imgLen.toNat transmitting.chunk.toNat + 1 ∧
    transmitting.schedule = transmitTurns [.delivered, .dropped, .delivered] ++ [.host] := by decide

/-- The same with the host in between: one write that is refused, one poll. -/
def interleaved : State :=
  { transmitting with
    img := imgV34
    program := [.access (.write 0x014 32 5), .wait]
    schedule := [.host, .engine, .engine, .sink .delivered, .engine, .host, .sink .dropped, .engine, .sink .delivered] }

theorem witness_CompletedTransmitOfferedExactlyThePlan :
    interleaved.params.wellFormed = true ∧ interleaved.imgLen.toNat ≤ interleaved.imgCap.toNat ∧
    interleaved.eph = .decode ∧ decode interleaved.latch = .ok .seqTransmit ∧
    (∀ x ∈ interleaved.schedule, x ≠ .reset) ∧
    got (runToIdle 12 interleaved) (fun t => (t.eph, t.out.length, t.err)) = some (.idle, 3, true) := by decide +kernel

theorem witness_SeqStepReadsNoByteBeyondImgLen :
    ({ seqAt 8 with imgLen := 12 } : State).nextTurn = .engine ∧ ({ seqAt 8 with imgLen := 12 } : State).eph = .seq ∧
    (∀ a, a < 12 → State.imgByte { seqAt 8 with imgLen := 12, img := imgV34.write 12 0xEE } a = (seqAt 8).imgByte a) ∧
    (got (step { seqAt 8 with imgLen := 12 }) (·.eph)).isSome = true := by decide +kernel

theorem witness_SequencerCommandsFrame :
    (got (exec .seqTransmit (decoding 0x00000020 0)) (·.eph)).isSome = true ∧
    (got (exec .imgClear (decoding 0x00000021 0)) (·.eph)).isSome = true := by decide +kernel

theorem witness_TurnsWithNothingEnabledDoNothing :
    ({ small with schedule := [.engine] } : State).nextTurn = .engine ∧
    (emitting .more [.engine]).nextTurn = .engine ∧
    (seqAt 0).eph ≠ .emit .final ∧ ({ seqAt 0 with schedule := [.sink .delivered] } : State).nextTurn =
      .sink .delivered := by decide

theorem witness_EmissionStep :
    ∀ k ∈ [AfterEmit.final, .more], ∀ o ∈ [SinkOutcome.delivered, .dropped],
      (emitting k [.sink o]).eph = .emit k ∧
        got (takeTurn (.sink o) (emitting k [])) (·.pktCount) = some 1 := by decide +kernel

theorem witness_OnlyTheSinkTakesPackets :
    got (step (emitting .final [.sink .delivered])) (·.out.length) = some 1 ∧
    got (step (emitting .final [.host])) (·.out.length) = some 0 ∧
    got (step (emitting .final [.reset])) (·.out.length) = some 0 := by decide +kernel

theorem witness_StalledEmissionHolds :
    (emitting .more [.host, .engine, .host]).eph = .emit .more ∧
    (∀ x ∈ (emitting .more [.host, .engine, .host]).schedule, x = .host ∨ x = .engine) ∧
    (got (run 9 (emitting .more [.host, .engine, .host])) (·.eph)).isSome = true := by decide +kernel

theorem witness_OperandsHoldWhileBusy :
    (hostMakes (.write 0x014 32 5) (accepted 0x00004413)).eph ≠ .idle ∧
    (hostMakes (.write 0x014 32 5) (accepted 0x00004413)).nextTurn ≠ .reset ∧
    (got (step (hostMakes (.write 0x014 32 5) (accepted 0x00004413))) (·.eph)).isSome = true ∧
    (hostMakes (.write 0x014 32 5) (accepted 0x00004413)).nextTurn ≠ .engine := by decide +kernel

/-- Both sides of the clauses on IMG and CRC: a host turn while IMG_CLEAR awaits its DECODE step, and that step. -/
theorem witness_OperandsHoldWhileBusy_imgClear :
    (hostMakes (.read 0x004 32) (accepted 0x00000021)).nextTurn = .host ∧
    (hostMakes (.read 0x004 32) (accepted 0x00000021)).eph = .decode ∧
    (got (step (hostMakes (.read 0x004 32) (accepted 0x00000021))) (·.eph)).isSome = true ∧
    (accepted 0x00000021).nextTurn = .engine ∧ decode (accepted 0x00000021).latch = .ok .imgClear := by decide +kernel

/-- The three cases of a DECODE step, at the boundary of each. -/
theorem witness_DecodeStepEndsTheCommandOrLeavesItInProgress :
    got (exec (.pktBuildSend 0x44 0x00 false) { small with plen := 57 }) (·.errcode) = some .length ∧
    got (exec (.pktBuildSend 0x44 0x00 false) { small with plen := 56 }) (·.eph) = some (.emit .final) ∧
    got (exec .seqTransmit { small with imgLen := 21 }) (·.errcode) = some .config ∧
    got (exec .seqTransmit { small with imgLen := 20 }) (·.eph) = some .seq ∧
    got (exec .crcPkt { small with plen := 57 }) (fun t => (t.errcode, t.done)) = some (.none, true) := by decide +kernel

theorem witness_BusErrorExactlyOffTheMap :
    (hostMakes (.read 0x02C 32) small).nextTurn = .host ∧
    (∀ x ∈ [(0x02C, 32, true), (0x030, 32, false), (0x02E, 32, false), (0x02C, 8, false), (0x03F, 8, false),
        (0x040, 8, true), (0x077, 8, true), (0x078, 8, false), (0x07F, 8, false), (0x080, 8, true), (0x0C3, 8, true),
        (0x0C4, 8, false), (0x00FFFFFF, 8, false), (0x01000000, 8, true), (0x01000013, 8, true),
        (0x01000014, 8, false), (0x01000010, 32, true), (0x040, 16, false), (0x074, 32, true)],
      (busRead small (BitVec.ofNat 32 x.1) x.2.1).isSome = x.2.2) := by decide +kernel

theorem witness_ReadsHaveNoSideEffect :
    (hostMakes (.read 0x077 8) small).nextTurn = .host ∧ Admitted 20 0x077 8 ∧ Admitted 20 0x02C 32 ∧
    Admitted 20 0x01000013 8 := by
  refine ⟨by decide, .inl ⟨rfl, .inl (by decide)⟩, .inr ⟨rfl, by decide, .inl (by decide)⟩,
    .inl ⟨rfl, .inr (.inr (by decide))⟩⟩

theorem witness_OperandWritesAreRefusedWhileBusy :
    (accepted 0x00004413).eph ≠ .idle ∧ OperandPlace 20 0x000 32 ∧ OperandPlace 20 0x00C 32 ∧
    OperandPlace 20 0x01C 32 ∧ OperandPlace 20 0x040 8 ∧ OperandPlace 20 0x077 8 ∧ OperandPlace 20 0x074 32 ∧
    OperandPlace 20 0x01000013 8 := by
  unfold OperandPlace Admitted InBufferWindow
  refine ⟨?_, ?_, ?_, ?_, ?_, ?_, ?_, ?_⟩ <;> decide

theorem witness_ReadOnlyPlacesIgnoreWrites :
    0x080 ≤ (0x0C0 : Word).toNat ∧ (0x0C0 : Word).toNat ≤ 0x0C3 ∧ (0x0C0 : Word).toNat % 4 = 0 ∧
    busRead { small with pkt := Vector.replicate 65 0x5A } 0x0C0 8 = some 0x5A ∧
    busRead { small with pkt := Vector.replicate 65 0x5A } 0x0C1 8 = some 0 ∧
    busRead { small with pkt := Vector.replicate 65 0x5A } 0x0C3 8 = some 0 ∧
    busRead { small with pkt := Vector.replicate 65 0x5A } 0x0BC 32 = some 0x5A5A5A5A ∧
    busRead { small with pkt := Vector.replicate 65 0x5A } 0x0C0 32 = some 0x0000005A := by decide +kernel

theorem witness_windows :
    small.eph = .idle ∧ (0x040 ≤ (0x040 : Word).toNat ∧ (0x074 : Word).toNat % 4 = 0 ∧ (0x077 : Word).toNat ≤ 0x077) ∧
    (0x01000000 : Word).toNat = 0x01000000 + 0 ∧ (0x01000013 : Word).toNat = 0x01000000 + 19 ∧
    0 < small.imgCap.toNat ∧ 19 < small.imgCap.toNat ∧ (0x01000010 : Word).toNat = 0x01000000 + 16 ∧ 16 % 4 = 0 := by
  decide

theorem witness_IrqIsStatusUnderIen :
    (busRead { small with done := true, ien := ⟨true, false, false⟩ } 0x004 32,
      busRead { small with done := true, ien := ⟨true, false, false⟩ } 0x008 32) = (some 0x2, some 0x2) := by
  decide +kernel

theorem witness_AcknowledgementDropsIrq :
    ({ small with done := true, txdrop := true, ien := ⟨true, true, false⟩ } : State).irq = true ∧
    (({ small with done := true, txdrop := true, ien := ⟨true, true, false⟩ } : State).err &&
      ({ small with done := true, txdrop := true, ien := ⟨true, true, false⟩ } : State).ien.err) = false ∧
    (({ small with done := true, txdrop := true, ien := ⟨true, true, false⟩ } : State).txdrop &&
      ({ small with done := true, txdrop := true, ien := ⟨true, true, false⟩ } : State).ien.txdrop) = false ∧
    ({ small with err := true, ien := ⟨true, true, true⟩ } : State).irq = true ∧
    ({ small with txdrop := true, ien := ⟨true, true, true⟩ } : State).irq = true ∧ small.eph = .idle := by decide

theorem witness_PseudoInstructionsExpand :
    ({ small with program := [.wait], schedule := [.host] } : State).nextTurn = .host ∧
    1 < [(0xAA : Byte), 0xBB].length := by decide

theorem witness_reset_turn : (emitting .more [.reset]).nextTurn = .reset := by decide

theorem witness_InvHoldsAtReset :
    Params.wellFormed ⟨(1 : BitVec 8).toNat, (4 : BitVec 25).toNat⟩ = true ∧
    Params.wellFormed ⟨(56 : BitVec 8).toNat, (16777216 : BitVec 25).toNat⟩ = true := by decide

/-- A state in the middle of a SEQ_TRANSMIT, offering its Set packet for the chunk at address 16, meets the
invariant. -/
theorem witness_Inv :
    State.Inv { seqAt 20 with
      eph := .emit .more
      pkt := pktOf [0x00, 0x11, 0x22, 0x10, 0x00, 0x00, 0x04, 0xC2, 0x9A, 0x11, 0x12, 0x13, 0x14] } where
  paramsLegal := by decide
  imgCanonical := by decide +kernel
  imgInside := by decide +kernel
  reportIdZero := by decide +kernel
  errHasCode := by decide
  busyNotDone := by decide
  sequencing := by decide
  offering := by decide
  saveIsLast := by intro h; cases h
  offeredCrcValid := by intro k _ _; decide +kernel

theorem witness_EveryStepKeepsInv :
    got (step { seqAt 20 with eph := .emit .more, schedule := [.sink .dropped] }) (·.eph) = some .seq ∧
    got (step (seqAt 16)) (·.seqAddr) = some 20 := by decide +kernel

end Sys2Proof.Tests
end

/-! The invariant of the block holds at reset, and every step keeps it: one lemma per named state update, then one per
kind of effect (a host write, a host step, a command's DECODE step, a turn), following the inversions of Laws/. -/

namespace Sys2Proof.Machine

variable {s t : State}

/-! What LATCH holds -/

/-- The command in LATCH decides what LATCH is the word of. -/
theorem latchIs_of_decode {i : Instr} (hd : decode s.latch = .ok i) (p : Instr → Bool) : s.latchIs p = p i := by
  rw [State.latchIs, hd]

/-- A property of LATCH's command passes to every weaker property. -/
theorem latchIs_mono {p q : Instr → Bool} (hpq : ∀ i, p i = true → q i = true) (h : s.latchIs p = true) :
    s.latchIs q = true := by
  rw [State.latchIs] at h ⊢
  split at h
  · exact hpq _ h
  · cases h

/-- SEQ_TRANSMIT offers packets, so a LATCH that holds it holds a command that offers one (rule R145). -/
theorem latchIs_offersPacket_of_seqTransmit (h : s.latchIs (fun i => decide (i = .seqTransmit)) = true) :
    s.latchIs offersPacket = true := by
  refine latchIs_mono (fun i hi => ?_) h
  rw [of_decide_eq_true hi]
  rfl

/-! The invariant by phase -/

/-- In phase IDLE the invariant is its clauses on the parameters, the image, PKT[0] and the error flag: the others speak
of a command in progress. -/
theorem inv_of_idle (hparams : s.params.wellFormed = true) (hwf : Memory.wf s.img)
    (hin : ∀ c ∈ s.img, c.1 < s.imgCap.toNat) (hpkt : s.pkt[0] = 0) (herr : s.err = true ↔ s.errcode ≠ .none)
    (hidle : s.eph = .idle) : s.Inv where
  paramsLegal := hparams
  imgCanonical := hwf
  imgInside := hin
  reportIdZero := hpkt
  errHasCode := herr
  busyNotDone := by simp [hidle]
  sequencing := by simp [hidle]
  offering := by simp [hidle]
  saveIsLast := by simp [hidle]
  offeredCrcValid := by simp [hidle]

/-- A device with legal parameters meets the invariant at reset (rules R7, R22). -/
theorem resetWith_inv {chunk : BitVec 8} {cap : BitVec 25} (h : Params.wellFormed ⟨chunk.toNat, cap.toNat⟩ = true) :
    (State.resetWith chunk cap).Inv :=
  inv_of_idle h .nil (fun _ hc => nomatch hc) (zeroPacket_getElem 0 (by decide)) (by simp [State.resetWith]) rfl

/-! The shared updates -/

theorem popTurn_keeps_inv (h : s.Inv) : s.popTurn.Inv := { h with }

theorem setProgram_keeps_inv (h : s.Inv) (rest : List HostOp) : ({ s with program := rest } : State).Inv := { h with }

theorem recordRead_keeps_inv (h : s.Inv) (off v : Word) (width : Nat) : (recordRead off width v s).Inv := { h with }

theorem logEmission_keeps_inv (h : s.Inv) (o : SinkOutcome) : (logEmission o s).Inv := { h with }

/-- An error is recorded with a code that is not NONE (rule R185). -/
theorem recordError_keeps_inv (h : s.Inv) {code : ErrCode} (hc : code ≠ .none) : (recordError code s).Inv :=
  { h with errHasCode := by simp [hc] }

theorem finish_keeps_inv (h : s.Inv) : (finish s).Inv :=
  inv_of_idle h.paramsLegal h.imgCanonical h.imgInside h.reportIdZero h.errHasCode rfl

theorem raiseError_keeps_inv (h : s.Inv) {code : ErrCode} (hc : code ≠ .none) : (raiseError code s).Inv :=
  finish_keeps_inv (recordError_keeps_inv h hc)

theorem resetTurn_keeps_inv (h : s.Inv) : (resetTurn s).Inv :=
  { resetWith_inv h.paramsLegal with }

/-! The host -/

/-- Write one to clear takes ERRCODE away with ERR and sets nothing (rule R24). -/
theorem writeStatus_keeps_inv (h : s.Inv) (v : Word) : (writeStatus v s).Inv :=
  { h with
    errHasCode := by
      rw [writeStatus_err, writeStatus_errcode]
      cases v.getLsbD 2 with
      | true => simp
      | false => simpa using h.errHasCode
    busyNotDone := fun hb => by rw [writeStatus_done, h.busyNotDone hb, Bool.false_and] }

/-- Acceptance clears DONE and offers nothing yet (rule R161). -/
theorem acceptCommand_keeps_inv (h : s.Inv) (w : Word) : (acceptCommand w s).Inv :=
  { h with
    busyNotDone := fun _ => rfl
    sequencing := by simp
    offering := by simp
    saveIsLast := by simp
    offeredCrcValid := by simp }

/-- An image write stays inside the image: a 32-bit one starts at a multiple of four below a capacity that is one (rules
R7, R53). -/
theorem imgWrite_inside {off v : Word} {width i : Nat} (hp : s.params.wellFormed = true)
    (hi : busTarget s off width = some (.buffer (.img i))) : i + (storedBytes width v).length ≤ s.imgCap.toNat := by
  obtain ⟨-, hcap4, -, -⟩ := (params_wellFormed_iff s).1 hp
  obtain ⟨-, hlt, rfl | ⟨rfl, hi4⟩⟩ := busTarget_eq_img hi
  · rw [storedBytes_length v (.inl rfl)]; omega
  · rw [storedBytes_length v (.inr rfl)]; omega

theorem writeEffect_keeps_inv {off v : Word} {width : Nat} (h : s.Inv) (he : WriteEffect s off width v t) : t.Inv := by
  cases he with
  | ignored => exact h
  | status => exact writeStatus_keeps_inv h v
  | ien => exact { h with }
  | refused => exact recordError_keeps_inv h (by decide)
  | accepted => exact acceptCommand_keeps_inv h v
  | crc => exact { h with }
  | hdr => exact { h with }
  | plen => exact { h with }
  | imgLen hidle => exact inv_of_idle h.paramsLegal h.imgCanonical h.imgInside h.reportIdZero h.errHasCode hidle
  | seqCodes hidle => exact inv_of_idle h.paramsLegal h.imgCanonical h.imgInside h.reportIdZero h.errHasCode hidle
  | pay => exact { h with }
  | img hidle i hi =>
    have hend := imgWrite_inside (v := v) h.paramsLegal hi
    refine { h with imgCanonical := Memory.writeBytes_wf h.imgCanonical _ _, imgInside := fun c hc => ?_ }
    rcases Memory.mem_writeBytes hc with hnew | hold
    · exact hnew.2.trans_le hend
    · exact h.imgInside c hold

theorem hostEffect_keeps_inv (h : s.Inv) (he : HostEffect s t) : t.Inv := by
  cases he with
  | ended => exact h
  | read off v width rest => exact recordRead_keeps_inv (setProgram_keeps_inv h rest) off v width
  | wrote off v width rest _ _ hw => exact writeEffect_keeps_inv (setProgram_keeps_inv h rest) hw
  | polled => exact recordRead_keeps_inv (setProgram_keeps_inv h _) _ _ _

/-! The engine and the sink -/

/-- A command's DECODE step: it is idle again, or offers its packet, or starts the sequencer at address 0. -/
theorem commandEffect_keeps_inv {i : Instr} (h : s.Inv) (hp : s.eph = .decode) (hd : decode s.latch = .ok i)
    (he : CommandEffect s i t) : t.Inv := by
  have hdone : s.done = false := h.busyNotDone (by simp [hp])
  have hlatch (p : Instr → Bool) : s.latchIs p = p i := latchIs_of_decode hd p
  cases he with
  | error _ code hc => exact raiseError_keeps_inv h (by rcases hc with rfl | rfl <;> decide)
  | finished _ c p hpkt =>
    have hp0 : p[0] = 0 := hpkt.elim (· ▸ h.reportIdZero) id
    exact inv_of_idle h.paramsLegal h.imgCanonical h.imgInside hp0 h.errHasCode rfl
  | cleared =>
    exact inv_of_idle h.paramsLegal (Memory.zeros_wf _) (fun _ => Memory.mem_zeros) h.reportIdZero h.errHasCode rfl
  | offered =>
    exact { h with
      busyNotDone := fun _ => hdone
      sequencing := by simp
      offering := fun _ => hlatch offersPacket
      saveIsLast := fun _ hseq => by cases (hlatch _).symm.trans hseq
      offeredCrcValid := fun _ _ hbuilt => by cases (hlatch _).symm.trans hbuilt }
  | builtAndOffered a b hdr pay =>
    exact { h with
      reportIdZero := buildPacket_reportId _ _ _ _
      busyNotDone := fun _ => hdone
      sequencing := by simp
      offering := fun _ => hlatch offersPacket
      saveIsLast := fun _ hseq => by cases (hlatch _).symm.trans hseq
      offeredCrcValid := fun _ _ _ => buildPacket_crcValid _ _ _ _ }
  | started hfits =>
    exact { h with
      busyNotDone := fun _ => hdone
      sequencing := fun _ => ⟨hlatch _, hfits, Nat.zero_le _⟩
      offering := by simp
      saveIsLast := by simp
      offeredCrcValid := by simp }

/-- A chunk ends inside the image (rule R146). -/
theorem chunkLen_le (s : State) : s.chunkLen ≤ s.imgLen.toNat - s.seqAddr.toNat := Nat.min_le_right _ _

/-- SEQ_ADDR after a Set packet: the chunk's end, without wrapping (rules R146, R148). -/
theorem seqSetStep_seqAddr_toNat (h : s.seqAddr.toNat ≤ s.imgLen.toNat) :
    (seqSetStep s).seqAddr.toNat = s.seqAddr.toNat + s.chunkLen := by
  have hchunk := chunkLen_le s
  have hlen := s.imgLen.isLt
  rw [seqSetStep_seqAddr, BitVec.toNat_ofNat, Nat.mod_eq_of_lt (by omega)]

theorem seqSetStep_keeps_inv (h : s.Inv) (hp : s.eph = .seq) : (seqSetStep s).Inv := by
  obtain ⟨hlatch, hfits, haddr⟩ := h.sequencing (.inl hp)
  have hchunk := chunkLen_le s
  exact { h with
    reportIdZero := buildPacket_reportId _ _ _ _
    busyNotDone := fun _ => h.busyNotDone (by simp [hp])
    sequencing := fun _ =>
      ⟨hlatch, hfits, by rw [seqSetStep_seqAddr_toNat haddr, seqSetStep_imgLen]; omega⟩
    offering := by simp
    saveIsLast := by simp
    offeredCrcValid := fun _ _ _ => buildPacket_crcValid _ _ _ _ }

/-- The Save packet is built when SEQ_ADDR, which never passes IMG_LEN, has reached it (rules R147, R148). -/
theorem seqSaveStep_keeps_inv (h : s.Inv) (hp : s.eph = .seq) (hend : s.imgLen.toNat ≤ s.seqAddr.toNat) :
    (seqSaveStep s).Inv := by
  obtain ⟨hlatch, -, haddr⟩ := h.sequencing (.inl hp)
  exact { h with
    reportIdZero := buildPacket_reportId _ _ _ _
    busyNotDone := fun _ => h.busyNotDone (by simp [hp])
    sequencing := by simp
    offering := fun _ => latchIs_offersPacket_of_seqTransmit hlatch
    saveIsLast := fun _ _ => ⟨BitVec.eq_of_toNat_eq (Nat.le_antisymm haddr hend), rfl⟩
    offeredCrcValid := fun _ _ _ => buildPacket_crcValid _ _ _ _ }

/-- An emission ends the command (END) or goes back to the sequencer (MORE) (rule R169). -/
theorem emission_keeps_inv (h : s.Inv) {k : AfterEmit} (hp : s.eph = .emit k) (o : SinkOutcome) :
    (emission k o s).Inv := by
  cases k with
  | final => exact finish_keeps_inv (logEmission_keeps_inv h o)
  | more =>
    exact { logEmission_keeps_inv h o with
      busyNotDone := fun _ => h.busyNotDone (by simp [hp])
      sequencing := fun _ => h.sequencing (.inr hp)
      offering := by simp
      saveIsLast := by simp
      offeredCrcValid := by simp }

/-! One step -/

theorem turnEffect_keeps_inv {x : Turn} (h : s.Inv) (he : TurnEffect s x t) : t.Inv := by
  cases he with
  | host _ he => exact hostEffect_keeps_inv h he
  | waiting => exact h
  | command i _ hp hd he => exact commandEffect_keeps_inv h hp hd he
  | illegal => exact raiseError_keeps_inv h (by decide)
  | seqSet hp => exact seqSetStep_keeps_inv h hp
  | seqSave hp hend => exact seqSaveStep_keeps_inv h hp hend
  | emitted k o hp => exact emission_keeps_inv h hp o
  | reset => exact resetTurn_keeps_inv h

/-- Settles O57, by the inversion of `step`: every effect a turn can have keeps the invariant. -/
theorem everyStepKeepsInv : Obligations.EveryStepKeepsInv :=
  fun _ _ hinv hstep => turnEffect_keeps_inv (popTurn_keeps_inv hinv) (step_cases hstep)

/-- Settles O56: the state after reset is idle, so only the clauses of an idle block have to hold. -/
theorem invHoldsAtReset : Obligations.InvHoldsAtReset :=
  ⟨resetWith_inv (by decide), fun _ _ => resetWith_inv⟩

end Sys2Proof.Machine

/-! The registers: what moves SEQ_ADDR, the output port's count and the hard-wired
registers (by the inversion of `step`); what the host reads and writes; IRQ; reset. -/

namespace Sys2Proof.Machine

variable {s t : State}

/-! What a step leaves alone -/

/-- A command's DECODE step takes nothing off the output port and leaves what is wired (rules R32 to R34). -/
theorem commandEffect_frame {i : Instr} (he : CommandEffect s i t) :
    t.out = s.out ∧ t.pktCount = s.pktCount ∧ t.chunk = s.chunk ∧ t.imgCap = s.imgCap := by
  cases he <;> exact ⟨rfl, rfl, rfl, rfl⟩

/-- The one command that writes SEQ_ADDR in its DECODE step is SEQ_TRANSMIT (rule R145). -/
theorem commandEffect_seqAddr {i : Instr} (he : CommandEffect s i t) :
    t.seqAddr = s.seqAddr ∨ (i = .seqTransmit ∧ t.seqAddr = 0) := by
  cases he with
  | started => exact .inr ⟨rfl, rfl⟩
  | error | finished | cleared | offered | builtAndOffered => exact .inl rfl

theorem turnEffect_hardwired {x : Turn} (he : TurnEffect s x t) : t.chunk = s.chunk ∧ t.imgCap = s.imgCap := by
  cases he with
  | host _ he =>
    obtain ⟨-, -, hchunk, hcap, -⟩ := hostEffect_frame he
    exact ⟨hchunk, hcap⟩
  | command _ _ _ _ he =>
    obtain ⟨-, -, hchunk, hcap⟩ := commandEffect_frame he
    exact ⟨hchunk, hcap⟩
  | emitted => exact ⟨emission_chunk .., emission_imgCap ..⟩
  | waiting | illegal | seqSet | seqSave | reset => exact ⟨rfl, rfl⟩

/-- Settles O55: no effect of a turn, reset included, writes the two registers. -/
theorem hardwiredRegistersNeverChange : Obligations.HardwiredRegistersNeverChange :=
  fun s _ hstep => turnEffect_hardwired (s := s.popTurn) (step_cases hstep)

/-- Settles O38: of the effects of a turn only the emission writes OUT, and only it and reset write PKT_COUNT. -/
theorem onlyTheSinkTakesPackets : Obligations.OnlyTheSinkTakesPackets := by
  intro s t hstep
  have he := step_cases hstep
  generalize s.nextTurn = x at he ⊢
  cases he with
  | emitted k o hp => exact .inr ⟨o, k, rfl, hp, emission_out .., emission_pktCount ..⟩
  | host _ he =>
    obtain ⟨hout, hcount, -⟩ := hostEffect_frame he
    exact .inl ⟨hout, fun _ => hcount⟩
  | command _ _ _ _ he =>
    obtain ⟨hout, hcount, -⟩ := commandEffect_frame he
    exact .inl ⟨hout, fun _ => hcount⟩
  | reset => exact .inl ⟨rfl, fun hreset => absurd rfl hreset⟩
  | waiting | illegal | seqSet | seqSave => exact .inl ⟨rfl, fun _ => rfl⟩

/-! SEQ_ADDR -/

/-- With a legal `P_CHUNK` a chunk is never empty (rules R7, R146). -/
theorem chunkLen_pos (hparams : s.params.wellFormed = true) (hlt : s.seqAddr.toNat < s.imgLen.toNat) :
    0 < s.chunkLen := by
  obtain ⟨⟨hchunk, -⟩, -⟩ := (params_wellFormed_iff s).1 hparams
  exact Nat.lt_min.2 ⟨hchunk, Nat.sub_pos_of_lt hlt⟩

/-- The build of a Set packet moves SEQ_ADDR forward by the chunk, not past IMG_LEN (rules R146, R148). -/
theorem seqSetStep_advances (hparams : s.params.wellFormed = true) (hlt : s.seqAddr.toNat < s.imgLen.toNat) :
    (seqSetStep s).seqAddr.toNat = s.seqAddr.toNat + s.chunkLen ∧
      s.seqAddr.toNat < (seqSetStep s).seqAddr.toNat ∧ (seqSetStep s).seqAddr.toNat ≤ s.imgLen.toNat := by
  have hnew := seqSetStep_seqAddr_toNat hlt.le
  have hpos := chunkLen_pos hparams hlt
  have hle := chunkLen_le s
  exact ⟨hnew, by omega, by omega⟩

/-- Settles O30: of the effects of a turn only a command's start, the Set packet's step and reset write SEQ_ADDR. -/
theorem onlyTheSequencerMovesSeqAddr : Obligations.OnlyTheSequencerMovesSeqAddr := by
  intro s t hinv hstep hreset
  have he := step_cases hstep
  generalize s.nextTurn = x at he hreset ⊢
  cases he with
  | command _ _ hp hd he =>
    rcases commandEffect_seqAddr he with haddr | ⟨rfl, haddr⟩
    · exact .inl haddr
    · exact .inr (.inl ⟨rfl, hp, hd, haddr⟩)
  | seqSet hp hlt => exact .inr (.inr ⟨rfl, hp, seqSetStep_advances (popTurn_keeps_inv hinv).paramsLegal hlt⟩)
  | host _ he =>
    obtain ⟨-, -, -, -, -, haddr, -⟩ := hostEffect_frame he
    exact .inl haddr
  | emitted => exact .inl (emission_seqAddr ..)
  | reset => exact absurd rfl hreset
  | waiting | illegal | seqSave => exact .inl rfl

/-! STATUS and IEN as words -/

theorem toNat_append_add {m n : Nat} (x : BitVec m) (y : BitVec n) : (x ++ y).toNat = 2 ^ n * x.toNat + y.toNat := by
  rw [BitVec.toNat_append, ← Nat.shiftLeft_add_eq_or_of_lt y.isLt, Nat.shiftLeft_eq, Nat.mul_comm]

/-- STATUS by its bit weights (rule R24). -/
theorem statusWord_toNat (s : State) :
    s.statusWord.toNat = s.busy.toNat + 2 * s.done.toNat + 4 * s.err.toNat + 8 * s.txdrop.toNat +
      256 * s.errcode.bits.toNat := by
  simp only [State.statusWord, toNat_append_add, BitVec.toNat_ofBool, BitVec.toNat_ofNat]
  omega

/-- IEN by its bit weights (rule R25). -/
theorem ienWord_toNat (s : State) :
    s.ienWord.toNat = 2 * s.ien.done.toNat + 4 * s.ien.err.toNat + 8 * s.ien.txdrop.toNat := by
  simp only [State.ienWord, toNat_append_add, BitVec.toNat_ofBool, BitVec.toNat_ofNat]
  omega

/-- Write one to clear, flag by flag (rule R24). -/
theorem writeStatus_eq (v : Word) (s : State) :
    writeStatus v s = { s with
      done := if v.getLsbD 1 then false else s.done
      txdrop := if v.getLsbD 3 then false else s.txdrop
      err := if v.getLsbD 2 then false else s.err
      errcode := if v.getLsbD 2 then .none else s.errcode } := by
  have clear (a b : Bool) : (a && !b) = if b then false else a := by cases b <;> simp
  simp only [writeStatus, clear]

/-- Settles O44: STATUS is read by its bit weights, and its write is `writeStatus` in every phase. -/
theorem statusReadsAndClears : Obligations.StatusReadsAndClears := by
  refine fun s => ⟨⟨s.statusWord, busRead_register (r := .status) rfl rfl, ?_⟩, fun v => ?_⟩
  · rw [statusWord_toNat]
    cases s.errcode <;> rfl
  · rw [busWrite_register (r := .status) rfl rfl]
    exact congrArg some (writeStatus_eq v s)

/-! IRQ -/

/-- The bits that STATUS and IEN share are the pending enabled sources: BUSY and ERRCODE have no IEN bit (rules R24,
R25). -/
theorem statusWord_and_ienWord (s : State) :
    s.statusWord &&& s.ienWord = 0#28 ++ BitVec.ofBool (s.txdrop && s.ien.txdrop) ++
      BitVec.ofBool (s.err && s.ien.err) ++ BitVec.ofBool (s.done && s.ien.done) ++ 0#1 := by
  rw [State.statusWord, State.ienWord]
  iterate 4 rw [BitVec.and_append]
  simp only [BitVec.ofBool_and_ofBool, BitVec.and_zero]

theorem or_iff_sourceBits_ne_zero : ∀ done err txdrop : Bool, (done || err || txdrop) = true ↔
    0#28 ++ BitVec.ofBool txdrop ++ BitVec.ofBool err ++ BitVec.ofBool done ++ 0#1 ≠ 0 := by decide

/-- Settles O50, by the bits that the two words share. -/
theorem irqIsStatusUnderIen : Obligations.IrqIsStatusUnderIen := by
  intro s status ien hstatus hien
  rw [busRead_register (r := .status) rfl rfl] at hstatus
  rw [busRead_register (r := .ien) rfl rfl] at hien
  cases hstatus
  cases hien
  rw [readRegister, readRegister, statusWord_and_ienWord, State.irq]
  exact or_iff_sourceBits_ne_zero _ _ _

/-! The registers as the host reads and writes them -/

/-- Settles O43: each offset of the map names its register. -/
theorem registersRead : Obligations.RegistersRead := fun _ =>
  ⟨busRead_register (r := .cmd) rfl rfl,
    ⟨_, busRead_register (r := .ien) rfl rfl, ienWord_toNat _⟩,
    busRead_register (r := .crc) rfl rfl,
    busRead_register (r := .hdr) rfl rfl,
    busRead_register (r := .plen) rfl rfl,
    busRead_register (r := .imgLen) rfl rfl,
    busRead_register (r := .seqCodes) rfl rfl,
    busRead_register (r := .seqAddr) rfl rfl,
    busRead_register (r := .pktCount) rfl rfl,
    busRead_register (r := .chunk) rfl rfl,
    busRead_register (r := .imgCap) rfl rfl⟩

theorem operandWrite_of_idle (hidle : s.eph = .idle) (store : State) : operandWrite store s = store :=
  if_neg (by simp [hidle])

/-- What a register reads after a write to it, with any fact `Q` of the state the write makes (rule R160). -/
theorem register_readBack {off v m : Word} {r : Register} {Q : State → Prop} (hr : registerAt off.toNat = some r)
    (ha : off.toNat % 4 = 0) (hwrite : writeRegister v s r = t) (hread : readRegister t r = m) (hQ : Q t) :
    ∃ u, busWrite s off 32 v = some u ∧ busRead u off 32 = some m ∧ Q u :=
  ⟨t, by rw [busWrite_register hr ha, hwrite], by rw [busRead_register hr ha, hread], hQ⟩

/-- A register of `n` bits reads its low bits as written and the others as zero (rule R58). -/
theorem setWidth_setWidth_eq_and (v : Word) (n : Nat) :
    (v.setWidth n).setWidth 32 = v &&& (BitVec.allOnes n).setWidth 32 := by
  apply BitVec.eq_of_getLsbD_eq
  intro i hi
  simp [hi, Bool.and_comm]

/-- IEN reads its three bits as written and the others as zero (rules R25, R58). -/
theorem writeIen_ienWord (v : Word) (s : State) : (writeIen v s).ienWord = v &&& 0x0000000E := by
  apply BitVec.eq_of_getLsbD_eq
  intro i hi
  rw [State.ienWord, writeIen_ien, BitVec.getLsbD_and]
  iterate 4 rw [BitVec.getLsbD_append]
  match i with
  | 0 | 1 | 2 | 3 => simp
  | i + 4 =>
    have hsmall : 14 < 2 ^ (i + 4) :=
      (by decide : 14 < 2 ^ 4).trans_le (Nat.pow_le_pow_right (by decide) (Nat.le_add_left 4 i))
    have hmask : (0x0000000E#32).getLsbD (i + 4) = false := Nat.testBit_lt_two_pow hsmall
    simp [hmask]

/-- Settles O45: a write that is not refused stores the register's own width, and that is what is read back. -/
theorem registersKeepTheirWritableBits : Obligations.RegistersKeepTheirWritableBits := by
  refine fun s v => ⟨register_readBack (r := .ien) rfl rfl rfl (writeIen_ienWord v s) rfl, fun hidle => ?_⟩
  have stored := operandWrite_of_idle hidle
  have masked := setWidth_setWidth_eq_and v
  exact ⟨register_readBack (r := .crc) rfl rfl (stored _) (masked 16) rfl,
    register_readBack (r := .hdr) rfl rfl (stored _) rfl rfl,
    register_readBack (r := .plen) rfl rfl (stored _) (masked 8) rfl,
    register_readBack (r := .imgLen) rfl rfl (stored _) (masked 25) rfl,
    register_readBack (r := .seqCodes) rfl rfl (stored _) (masked 24) rfl⟩

/-! Reset -/

/-- Settles O53: the step is `resetTurn`, whose fields Laws/State.lean lists. -/
theorem resetStep : Obligations.ResetStep := fun s hturn =>
  ⟨resetTurn s.popTurn, step_reset hturn, by simp +contextual [State.irq]⟩

/-- Settles O54: after reset the image memory lists no byte, so each reads as its draw. -/
theorem imageIsUnspecifiedAfterReset : Obligations.ImageIsUnspecifiedAfterReset := fun s hturn =>
  ⟨resetTurn s.popTurn, step_reset hturn, fun _ => rfl⟩

end Sys2Proof.Machine

/-! The host bus and the memory map: which accesses fault, what a read leaves alone, and the byte lanes of the three
windows. -/

namespace Sys2Proof.Machine

variable {s t : State}

/-! Accesses on and off the map -/

/-- The map admits the access (rules R51 to R54). -/
def HostAccess.AdmittedBy (cap : Nat) : HostAccess → Prop
  | .read off width => Admitted cap off.toNat width
  | .write off width _ => Admitted cap off.toNat width

theorem hostAccess_read {off v : Word} {width : Nat} (hv : busRead s off width = some v) :
    hostAccess (.read off width) s = .next (recordRead off width v s) := by
  rw [hostAccess, hv]

/-- An admitted access is answered (rule R57). -/
theorem hostAccess_next_of_admittedBy {a : HostAccess} (ha : a.AdmittedBy s.imgCap.toNat) :
    ∃ t, hostAccess a s = .next t := by
  cases a with
  | read off width =>
    obtain ⟨v, hv⟩ := Option.isSome_iff_exists.1 ((busRead_isSome_iff s off width).2 ha)
    exact ⟨_, hostAccess_read hv⟩
  | write off width v =>
    obtain ⟨t, ht⟩ := Option.isSome_iff_exists.1 ((busWrite_isSome_iff s off width v).2 ha)
    exact ⟨t, by rw [hostAccess, ht]⟩

/-- Any other access is a BusError (rule R57). -/
theorem hostAccess_busError_of_not_admittedBy {a : HostAccess} (ha : ¬a.AdmittedBy s.imgCap.toNat) :
    hostAccess a s = .fault .busError := by
  cases a with
  | read off width =>
    have hnone := Option.not_isSome_iff_eq_none.1 (mt (busRead_isSome_iff s off width).1 ha)
    rw [hostAccess, hnone]
  | write off width v =>
    have hnone := Option.not_isSome_iff_eq_none.1 (mt (busWrite_isSome_iff s off width v).1 ha)
    rw [hostAccess, hnone]

theorem hostAccess_busError_iff (a : HostAccess) (s : State) :
    hostAccess a s = .fault .busError ↔ ¬a.AdmittedBy s.imgCap.toNat := by
  refine ⟨fun hfault ha => ?_, hostAccess_busError_of_not_admittedBy⟩
  obtain ⟨t, ht⟩ := hostAccess_next_of_admittedBy ha
  rw [ht] at hfault
  cases hfault

theorem hostTurn_access {a : HostAccess} {rest : List HostOp} (hp : s.program = .access a :: rest) :
    hostTurn s = hostAccess a { s with program := rest } := by
  rw [hostTurn, hp]

/-- A turn of the host whose program goes on with an access (rule R88). -/
theorem step_access {a : HostAccess} {rest : List HostOp} (ht : s.nextTurn = .host)
    (hp : s.program = .access a :: rest) : step s = hostAccess a { s.popTurn with program := rest } := by
  rw [step_host ht, hostTurn_access (by rw [popTurn_program, hp])]

/-- Settles O41: the step is the access, and the bus answers it exactly when the map admits it. -/
theorem busErrorExactlyOffTheMap : Obligations.BusErrorExactlyOffTheMap := by
  intro s off width v rest ht
  constructor
  · intro hp
    rw [step_access ht hp]
    exact hostAccess_busError_iff (.read off width) _
  · intro hp
    rw [step_access ht hp]
    exact hostAccess_busError_iff (.write off width v) _

/-! What stops the machine -/

theorem decodeStep_answers (s : State) : ∃ t, decodeStep s = .next t := by
  unfold decodeStep
  split
  · obtain ⟨t, ht, -⟩ := exec_effect _ s
    exact ⟨t, ht⟩
  · exact ⟨_, rfl⟩

theorem engineTurn_answers (s : State) : ∃ t, engineTurn s = .next t := by
  unfold engineTurn
  split
  · exact decodeStep_answers s
  all_goals exact ⟨_, rfl⟩

/-- Only an access can keep the host's turn from answering a next state. -/
theorem hostTurn_answers_or_accesses (s : State) :
    (∃ t, hostTurn s = .next t) ∨ ∃ a rest, s.program = .access a :: rest := by
  unfold hostTurn
  split
  · exact .inl ⟨_, rfl⟩
  · exact .inr ⟨_, _, ‹_›⟩
  · exact .inl ⟨_, rfl⟩

/-- Only a host's turn with an access can keep the step from answering a next state. -/
theorem step_answers_or_accesses (s : State) :
    (∃ t, step s = .next t) ∨ (s.nextTurn = .host ∧ ∃ a rest, s.program = .access a :: rest) := by
  unfold step
  cases s.nextTurn with
  | host => exact (hostTurn_answers_or_accesses s.popTurn).imp_right fun ha => ⟨rfl, ha⟩
  | engine => exact .inl (engineTurn_answers s.popTurn)
  | sink o => exact .inl ⟨_, rfl⟩
  | reset => exact .inl ⟨_, rfl⟩

/-- Settles O7: only an access could stop the step, and an admitted access is answered. -/
theorem onlyABusErrorStopsTheMachine : Obligations.OnlyABusErrorStopsTheMachine := by
  intro s
  rcases step_answers_or_accesses s with hnext | ⟨ht, a, rest, hp⟩
  · exact .inl hnext
  · rw [step_access ht hp]
    by_cases ha : a.AdmittedBy s.imgCap.toNat
    · exact .inl (hostAccess_next_of_admittedBy ha)
    · refine .inr ⟨hostAccess_busError_of_not_admittedBy ha, ht, a, rest, hp, ?_⟩
      cases a <;> exact ha

/-! Reads -/

/-- What is read does not depend on the schedule or the host's program. -/
theorem busRead_of_environment (s : State) (turns : List Turn) (ops : List HostOp) (off : Word) (width : Nat) :
    busRead { s with schedule := turns, program := ops } off width = busRead s off width := by
  refine Option.map_congr fun target _ => ?_
  cases target with
  | register r => cases r <;> rfl
  | buffer b => cases b <;> rfl

/-- Settles O42: an admitted read has a value, and the step records it and does nothing else. -/
theorem readsHaveNoSideEffect : Obligations.ReadsHaveNoSideEffect := by
  intro s off width rest ht hp ha
  obtain ⟨v, hv⟩ := Option.isSome_iff_exists.1 ((busRead_isSome_iff s off width).2 ha)
  refine ⟨v, hv, ?_⟩
  have hv' : busRead { s.popTurn with program := rest } off width = some v :=
    (busRead_of_environment s s.schedule.tail rest off width).trans hv
  rw [step_access ht hp, hostAccess_read hv']
  rfl

/-! The operands of a command in progress -/

/-- A command's DECODE step writes no operand (rule R71). -/
theorem commandEffect_sameOperands {i : Instr} (he : CommandEffect s i t) : SameOperands s t := by
  cases he <;> exact ⟨rfl, rfl, rfl, rfl, rfl, rfl, rfl, rfl, rfl⟩

/-- The one command that writes IMG is IMG_CLEAR (rule R150). -/
theorem commandEffect_sameImage {i : Instr} (he : CommandEffect s i t) (hi : i ≠ .imgClear) : SameImage s t := by
  cases he with
  | cleared => exact absurd rfl hi
  | error | finished | offered | builtAndOffered | started => exact fun _ => rfl

/-- Settles O40: of the effects of a turn, the host's writes are refused while BUSY, the engine's write no operand, and
only IMG_CLEAR's writes the image. -/
theorem operandsHoldWhileBusy : Obligations.OperandsHoldWhileBusy := by
  intro s t hbusy hreset hstep
  have he := step_cases hstep
  generalize s.nextTurn = x at he hreset ⊢
  cases he with
  | host _ he =>
    obtain ⟨-, hlatch, hcrc, hhdr, hplen, himgLen, hcodes, hpay, himg⟩ := hostEffect_busy_frame he hbusy
    obtain ⟨-, -, -, -, -, -, -, hresets⟩ := hostEffect_frame he
    exact ⟨hlatch, hhdr, hplen, himgLen, hcodes, hpay, fun _ => imgByte_congr himg hresets, fun _ => hcrc⟩
  | command i _ hp hd he =>
    obtain ⟨hlatch, -, hhdr, hplen, himgLen, hcodes, -, -, hpay⟩ := commandEffect_sameOperands he
    refine ⟨hlatch, hhdr, hplen, himgLen, hcodes, hpay, fun hclear => ?_, fun hengine => absurd rfl hengine⟩
    exact commandEffect_sameImage (s := s.popTurn) he fun hi => hclear ⟨rfl, hp, hi ▸ hd⟩
  | emitted k o =>
    exact ⟨emission_latch .., emission_hdr .., emission_plen .., emission_imgLen .., emission_seqCodes ..,
      emission_pay .., fun _ => imgByte_congr (emission_img ..) (emission_resets ..), fun _ => emission_crc ..⟩
  | reset => exact absurd rfl hreset
  | waiting => exact ⟨rfl, rfl, rfl, rfl, rfl, rfl, fun _ _ => rfl, fun _ => rfl⟩
  | illegal | seqSet | seqSave =>
    exact ⟨rfl, rfl, rfl, rfl, rfl, rfl, fun _ _ => rfl, fun hengine => absurd rfl hengine⟩

/-! What the sequencer reads of the image -/

/-- The bytes of the next chunk lie below IMG_LEN, so states that agree there build the same Set packet (rules R62,
R146). -/
theorem setPacket_congr_below_imgLen {m : Memory} (hlt : s.seqAddr.toNat < s.imgLen.toNat)
    (hm : ∀ a, a < s.imgLen.toNat → State.imgByte { s with img := m } a = s.imgByte a) :
    setPacket { s with img := m } s.seqAddr.toNat s.chunkLen = setPacket s s.seqAddr.toNat s.chunkLen := by
  have hbytes : State.imgBytes { s with img := m } s.seqAddr.toNat s.chunkLen =
      s.imgBytes s.seqAddr.toNat s.chunkLen := by
    refine List.map_congr_left fun j hj => hm _ ?_
    have hj := List.mem_range.1 hj
    have hle := chunkLen_le s
    omega
  rw [setPacket_eq, setPacket_eq, hbytes]
  rfl

/-- A SEQ step depends on the image bytes below IMG_LEN only, and leaves the memory as it is (rule R62). -/
theorem seqStep_congr_below_imgLen {m : Memory}
    (hm : ∀ a, a < s.imgLen.toNat → State.imgByte { s with img := m } a = s.imgByte a) :
    seqStep { s with img := m } = { seqStep s with img := m } := by
  by_cases hlt : s.seqAddr.toNat < s.imgLen.toNat
  · have hset : seqSetStep { s with img := m } =
        { storePacket (setPacket { s with img := m } s.seqAddr.toNat s.chunkLen) s with
          seqAddr := BitVec.ofNat 25 (s.seqAddr.toNat + s.chunkLen), eph := .emit .more, img := m } := rfl
    rw [seqStep, if_pos hlt, seqStep, if_pos hlt, hset, setPacket_congr_below_imgLen hlt hm]
    rfl
  · rw [seqStep, if_neg hlt, seqStep, if_neg hlt]
    rfl

/-- Settles O29: the step is `seqStep`. -/
theorem seqStepReadsNoByteBeyondImgLen : Obligations.SeqStepReadsNoByteBeyondImgLen := by
  intro s t m ht hp hm hstep
  rw [step_seq ht hp] at hstep
  cases hstep
  rw [step_seq (s := { s with img := m }) ht hp]
  exact congrArg _ (seqStep_congr_below_imgLen (s := s.popTurn) hm)

/-! The windows: which place an offset is, and what an access to it reads and writes -/

theorem bufferAt_pay {cap off : Nat} (hlo : 0x040 ≤ off) (hhi : off ≤ 0x077) :
    bufferAt cap off = some (.pay (off - 0x040)) :=
  if_pos ⟨hlo, by omega⟩

theorem bufferAt_pkt {cap off : Nat} (hlo : 0x080 ≤ off) (hhi : off ≤ 0x0C3) :
    bufferAt cap off = some (.pkt (off - 0x080)) := by
  rw [bufferAt, if_neg (by omega), if_pos ⟨hlo, by omega⟩]

theorem bufferAt_img {cap a : Nat} (ha : a < cap) : bufferAt cap (0x01000000 + a) = some (.img a) := by
  rw [bufferAt, if_neg (by omega), if_neg (by omega), if_pos (by unfold imgBase; omega), imgBase,
    Nat.add_sub_cancel_left]

/-- An 8-bit read of a window (rule R160; log 8). -/
theorem busRead_byte {off : Word} {b : BufferPlace} (hb : bufferAt s.imgCap.toNat off.toNat = some b) :
    busRead s off 8 = some ((readByte s b).setWidth 32) := by
  rw [busRead, busTarget_buffer hb (.inl rfl)]
  rfl

/-- A 32-bit read of a window (rules R55, R160). -/
theorem busRead_word {off : Word} {b : BufferPlace} (hb : bufferAt s.imgCap.toNat off.toNat = some b)
    (ha : off.toNat % 4 = 0) : busRead s off 32 = some (readWord s b) := by
  rw [busRead, busTarget_buffer hb (.inr ⟨rfl, ha⟩)]
  rfl

/-- An 8-bit write of a window (rules R56, R160; log 8). -/
theorem busWrite_byte {off v : Word} {b : BufferPlace} (hb : bufferAt s.imgCap.toNat off.toNat = some b) :
    busWrite s off 8 v = some (writeBuffer [v.extractLsb' 0 8] s b) := by
  rw [busWrite, busTarget_buffer hb (.inl rfl)]
  rfl

/-- A 32-bit write of a window (rules R55, R160). -/
theorem busWrite_word {off v : Word} {b : BufferPlace} (hb : bufferAt s.imgCap.toNat off.toNat = some b)
    (ha : off.toNat % 4 = 0) : busWrite s off 32 v = some (writeBuffer (le32 v) s b) := by
  rw [busWrite, busTarget_buffer hb (.inr ⟨rfl, ha⟩)]
  rfl

theorem writeBuffer_pay (hidle : s.eph = .idle) (bytes : List Byte) (i : Nat) :
    writeBuffer bytes s (.pay i) = { s with pay := placeBytes s.pay i bytes } :=
  operandWrite_of_idle hidle _

theorem writeBuffer_img (hidle : s.eph = .idle) (bytes : List Byte) (a : Nat) :
    writeBuffer bytes s (.img a) = { s with img := s.img.writeBytes a bytes } :=
  operandWrite_of_idle hidle _

/-! Bytes and lanes -/

theorem byteOf_of_lt {n i : Nat} (buf : Vector Byte n) (hi : i < n) : buf[i]? = some (byteOf buf i) := by
  rw [byteOf, Vector.getElem?_eq_getElem hi, Option.getD_some]

/-- A buffer reads zero past its end (rule R58). -/
theorem byteOf_of_ge {n i : Nat} (buf : Vector Byte n) (hi : n ≤ i) : byteOf buf i = 0 := by
  rw [byteOf, Vector.getElem?_eq_none hi, Option.getD_none]

/-- Byte `k` of `le32` is lane `k` of the word (rule R55). -/
theorem le32_getElem? (v : Word) {k : Nat} (hk : k < 4) : (le32 v)[k]? = some (v.extractLsb' (8 * k) 8) := by
  interval_cases k <;> rfl

/-- Four bytes that are the lanes of a word make the word (rule R55). -/
theorem wordAt_eq_of_lanes {f : Nat → Byte} {i : Nat} {v : Word}
    (hf : ∀ k, k < 4 → f (i + k) = v.extractLsb' (8 * k) 8) : wordAt f i = v := by
  have hf0 : f i = v.extractLsb' 0 8 := hf 0 (by decide)
  rw [wordAt, hf 3 (by decide), hf 2 (by decide), hf 1 (by decide), hf0]
  exact le32_append v

/-! The PKT window -/

/-- Settles O46: each place is a register that is not written or a place of the PKT window, whose bytes are those of PKT
and then zeros. -/
theorem readOnlyPlacesIgnoreWrites : Obligations.ReadOnlyPlacesIgnoreWrites := by
  intro s v
  refine ⟨?_, ?_, ?_, ?_, ?_, ?_⟩
  · simp only [List.forall_mem_cons, List.not_mem_nil, false_implies, implies_true, and_true]
    exact ⟨busWrite_register (r := .seqAddr) rfl rfl, busWrite_register (r := .pktCount) rfl rfl,
      busWrite_register (r := .chunk) rfl rfl, busWrite_register (r := .imgCap) rfl rfl⟩
  · intro off hlo hhi
    exact busWrite_byte (bufferAt_pkt hlo hhi)
  · intro off hlo hhi ha
    exact busWrite_word (bufferAt_pkt hlo hhi) ha
  · intro off hlo hhi
    rw [busRead_byte (bufferAt_pkt hlo (by omega)), byteOf_of_lt (n := 65) s.pkt (by omega)]
    rfl
  · intro off hlo hhi
    rw [busRead_byte (bufferAt_pkt (by omega) hhi), readByte, byteOf_of_ge (n := 65) s.pkt (by omega)]
    rfl
  · intro off hlo hhi ha
    refine ⟨_, busRead_word (bufferAt_pkt hlo hhi) ha, fun j hj => ?_⟩
    rw [readWord, wordAt_lane _ _ hj]
    split
    · exact (byteOf_of_lt s.pkt ‹_›).symm
    · rw [byteOf_of_ge (n := 65) s.pkt (by omega)]

/-! The PAY window -/

/-- Placing one byte changes exactly its place. -/
theorem placeBytes_byte_getElem? {n : Nat} (buf : Vector Byte n) (a : Nat) (b : Byte) {i : Nat} (hi : i < n) :
    (placeBytes buf a [b])[i]? = if i = a then some b else buf[i]? := by
  rw [placeBytes_getElem?, List.length_singleton]
  by_cases h : i = a
  · subst h
    simp [hi]
  · rw [if_neg (by omega), if_neg h]

/-- Placing a word changes exactly its four places (rule R55). -/
theorem placeBytes_word_getElem? {n : Nat} (buf : Vector Byte n) (a : Nat) (v : Word) {i : Nat} (hi : i < n) :
    (placeBytes buf a (le32 v))[i]? =
      if a ≤ i ∧ i < a + 4 then some (v.extractLsb' (8 * (i - a)) 8) else buf[i]? := by
  rw [placeBytes_getElem?, le32_length]
  by_cases h : a ≤ i ∧ i < a + 4
  · rw [if_pos ⟨h.1, h.2, hi⟩, if_pos h, le32_getElem? v (by omega)]
  · rw [if_neg (by tauto), if_neg h]

/-- A word placed whole in a buffer is read back (rule R55). -/
theorem wordAt_placeBytes_le32 {n : Nat} (buf : Vector Byte n) {a : Nat} (v : Word) (ha : a + 4 ≤ n) :
    wordAt (byteOf (placeBytes buf a (le32 v))) a = v := by
  refine wordAt_eq_of_lanes fun k hk => ?_
  rw [byteOf, placeBytes_word_getElem? buf a v (by omega), if_pos (by omega), Nat.add_sub_cancel_left, Option.getD_some]

/-- Settles O48: an idle engine's PAY takes the placed bytes, and a read is of the bytes in their lanes. -/
theorem payWindowByteLanes : Obligations.PayWindowByteLanes := by
  intro s off v hlo hhi
  have hb : bufferAt s.imgCap.toNat off.toNat = some (.pay (off.toNat - 0x040)) := bufferAt_pay hlo hhi
  refine ⟨fun hidle => ?_, fun hidle ha => ?_, ?_, fun ha => ?_⟩
  · refine ⟨_, busWrite_byte hb, ?_⟩
    rw [writeBuffer_pay hidle]
    exact ⟨rfl, fun i hi => placeBytes_byte_getElem? s.pay _ _ hi⟩
  · refine ⟨_, busWrite_word hb ha, ?_⟩
    rw [writeBuffer_pay hidle]
    refine ⟨rfl, ?_, fun i hi => placeBytes_word_getElem? s.pay _ v hi⟩
    exact Eq.trans (busRead_word hb ha) (congrArg some (wordAt_placeBytes_le32 (n := 56) s.pay v (by omega)))
  · rw [busRead_byte hb, byteOf_of_lt (n := 56) s.pay (by omega)]
    rfl
  · refine ⟨_, busRead_word hb ha, fun j hj => ?_⟩
    rw [readWord, wordAt_lane _ _ hj]
    exact (byteOf_of_lt (n := 56) s.pay (by omega)).symm

/-! The image window -/

/-- Writing one byte changes exactly its address (rule R56). -/
theorem imgByte_writeByte (s : State) (a : Nat) (b : Byte) (x : Nat) :
    State.imgByte { s with img := s.img.writeBytes a [b] } x = if x = a then b else s.imgByte x := by
  rw [State.imgByte, Memory.writeBytes, Memory.writeBytes, Memory.lookup_write]
  split <;> rfl

/-- Writing a word changes exactly its four addresses (rule R55). -/
theorem imgByte_writeWord (s : State) (a : Nat) (v : Word) (x : Nat) :
    State.imgByte { s with img := s.img.writeBytes a (le32 v) } x =
      if a ≤ x ∧ x < a + 4 then v.extractLsb' (8 * (x - a)) 8 else s.imgByte x := by
  rw [State.imgByte, Memory.lookup_writeBytes, le32_length]
  split
  · rw [le32_getElem? v (by omega), Option.getD_some]
  · rfl

/-- A word written to the image is read back (rule R55). -/
theorem wordAt_imgByte_writeWord (s : State) (a : Nat) (v : Word) :
    wordAt (State.imgByte { s with img := s.img.writeBytes a (le32 v) }) a = v := by
  refine wordAt_eq_of_lanes fun k hk => ?_
  rw [imgByte_writeWord, if_pos (by omega), Nat.add_sub_cancel_left]

/-- Settles O49: an idle engine's IMG takes the written bytes, and a read is of the bytes in their lanes. -/
theorem imageWindowByteLanes : Obligations.ImageWindowByteLanes := by
  intro s off a v hoff hcap
  have hb : bufferAt s.imgCap.toNat off.toNat = some (.img a) := by rw [hoff, bufferAt_img hcap]
  have aligned (ha : a % 4 = 0) : off.toNat % 4 = 0 := by omega
  refine ⟨fun hidle => ?_, fun hidle ha => ?_, fun ha => ?_, busRead_byte hb⟩
  · refine ⟨_, busWrite_byte hb, ?_⟩
    rw [writeBuffer_img hidle]
    exact ⟨rfl, imgByte_writeByte s a _⟩
  · refine ⟨_, busWrite_word hb (aligned ha), ?_⟩
    rw [writeBuffer_img hidle]
    refine ⟨rfl, ?_, imgByte_writeWord s a v⟩
    exact Eq.trans (busRead_word hb (aligned ha)) (congrArg some (wordAt_imgByte_writeWord s a v))
  · exact ⟨_, busRead_word hb (aligned ha), wordAt_imgByte s a⟩

end Sys2Proof.Machine

/-! The encoding: the fields of a word, which words are commands, and what the lines of a host program stand for. -/

namespace Sys2Proof

variable {w w' : Word}

/-! The fields of a word, and the decoder on a command word -/

/-- A is bits 15:8 of the word (rule R80). -/
theorem aField_toNat (w : Word) : (aField w).toNat = w.toNat / 2 ^ 8 % 256 := by
  simp [aField, BitVec.extractLsb'_toNat, Nat.shiftRight_eq_div_pow]

/-- B is bits 23:16 of the word (rule R80). -/
theorem bField_toNat (w : Word) : (bField w).toNat = w.toNat / 2 ^ 16 % 256 := by
  simp [bField, BitVec.extractLsb'_toNat, Nat.shiftRight_eq_div_pow]

/-- H is bit 24 of the word (rule R80). -/
theorem hField_toNat (w : Word) : (hField w).toNat = w.toNat / 2 ^ 24 % 2 := by
  rw [hField, BitVec.getLsbD, Nat.toNat_testBit]

/-- Settles O2: each field is a quotient and a remainder of the word, and a command word has the fields given. -/
theorem commandWordIsItsFields : Obligations.CommandWordIsItsFields := by
  refine ⟨fun w => ?_, fun op a b h => ?_⟩
  · rw [rsvField_toNat, hField_toNat, bField_toNat, aField_toNat, opField_toNat]
    omega
  · exact ⟨rsvField_commandWord .., hField_commandWord .., bField_commandWord .., aField_commandWord ..,
      opField_commandWord ..⟩

/-- A command word decodes by its OP value: its RSV is zero (rules R80, R85). -/
theorem decode_commandWord (op a b : Byte) (h : Bool) :
    decode (commandWord op a b h) = decodeOp (commandWord op a b h) :=
  decode_of_rsv_zero (rsvField_commandWord ..)

theorem decode_encode (i : Instr) : decode (encode i) = .ok i := by
  cases i with
  | crcByte | pktBuild | pktBuildSend =>
    rw [encode, decode_commandWord]
    simp [decodeOp]
  | nop | crcInit | crcPayload | crcPkt | pktClear | pktSend | seqTransmit | imgClear => rfl

/-- Settles O1: every command is well formed, so the premise is not needed. -/
theorem decodeInvertsEncode : Obligations.DecodeInvertsEncode := fun i _ => decode_encode i

/-- Settles O5: every word is written out. -/
theorem workedEncodings : Obligations.WorkedEncodings := by
  unfold Obligations.WorkedEncodings
  decide

/-! Legal words -/

/-- The decoder's OP values are the legal ones (rule R84). -/
theorem decodeOp_isOk_iff (w : Word) : (∃ i, decodeOp w = .ok i) ↔ (opField w).toNat ∈ legalOps := by
  unfold decodeOp
  split
  case h_12 => simp_all [legalOps] -- a reserved OP value
  all_goals simp [legalOps, *]

/-- A legal word, by its fields (rule R85). -/
theorem wordWellFormed_iff (w : Word) :
    wordWellFormed w = true ↔ rsvField w = 0 ∧ (opField w).toNat ∈ legalOps := by
  rw [wordWellFormed, Bool.and_eq_true, decide_eq_true_iff, decide_eq_true_iff, ← opField_toNat, ← rsvField_toNat,
    and_comm, BitVec.toNat_eq (x := rsvField w)]
  rfl

/-- The decoder admits the legal words (rule R85). -/
theorem decode_isOk_iff (w : Word) : (∃ i, decode w = .ok i) ↔ wordWellFormed w = true := by
  rw [wordWellFormed_iff]
  by_cases hw : rsvField w = 0
  · simp only [decode_of_rsv_zero hw, hw, true_and, decodeOp_isOk_iff]
  · simp only [decode_of_rsv_ne_zero hw, hw, false_and, reduceCtorEq, exists_false]

theorem decode_error_of_not_wellFormed (hw : wordWellFormed w = false) : ∃ e, decode w = .error e := by
  cases hd : decode w with
  | error e => exact ⟨e, rfl⟩
  | ok i => simp [(decode_isOk_iff w).1 ⟨i, hd⟩] at hw

/-! The fields a command does not use -/

/-- Legal words that agree on OP and on the fields their command uses are the same command (rule R86). -/
theorem decode_congr (hrsv : rsvField w = 0) (hrsv' : rsvField w' = 0) (hop : opField w = opField w')
    (hbyte : opField w = 0x02 → aField w = aField w')
    (hbuild : opField w = 0x11 ∨ opField w = 0x13 →
      aField w = aField w' ∧ bField w = bField w' ∧ hField w = hField w') :
    decode w = decode w' := by
  have hval {n : Nat} (hn : (opField w).toNat = n) : opField w = BitVec.ofNat 8 n := by simp [← hn]
  rw [decode_of_rsv_zero hrsv, decode_of_rsv_zero hrsv', decodeOp, decodeOp, ← hop]
  split
  case h_3 hn => -- CRC_BYTE
    rw [hbyte (hval hn)]
  case h_7 hn => -- PKT_BUILD
    obtain ⟨ha, hb, hh⟩ := hbuild (.inl (hval hn))
    rw [ha, hb, hh]
  case h_9 hn => -- PKT_BUILD_SEND
    obtain ⟨ha, hb, hh⟩ := hbuild (.inr (hval hn))
    rw [ha, hb, hh]
  all_goals rfl

end Sys2Proof

namespace Sys2Proof.Machine

variable {s : State}

/-- The engine's turn with an illegal word in LATCH (rules R85, R182). -/
theorem engineTurn_illegal {e : DecodeError} (hp : s.eph = .decode) (hd : decode s.latch = .error e) :
    engineTurn s = .next (raiseError .illegal s) := by
  rw [engineTurn, hp]
  simp only [decodeStep, hd]

/-- Settles O3: a word that is not legal does not decode, and the engine's turn then raises ILLEGAL. -/
theorem legalWordsDecodeOthersAreIllegal : Obligations.LegalWordsDecodeOthersAreIllegal := by
  refine fun w => ⟨decode_isOk_iff w, fun s hlatch hp hw => ?_⟩
  obtain ⟨e, hd⟩ := decode_error_of_not_wellFormed hw
  exact engineTurn_illegal hp (hlatch ▸ hd)

/-- No command reads or writes LATCH in its DECODE step (rule R86). -/
theorem exec_setLatch (i : Instr) (s : State) (w : Word) :
    ∃ t, exec i s = .next t ∧ exec i { s with latch := w } = .next { t with latch := w } := by
  cases i with
  | nop | crcInit | crcByte | crcPkt | pktClear | pktSend | imgClear => exact ⟨_, rfl, rfl⟩
  | crcPayload =>
    rcases Nat.lt_or_ge 56 s.plen.toNat with hp | hp
    · exact ⟨_, execCrcPayload_of_gt hp, execCrcPayload_of_gt (s := { s with latch := w }) hp⟩
    · exact ⟨_, execCrcPayload_of_le hp, execCrcPayload_of_le (s := { s with latch := w }) hp⟩
  | pktBuild a b hd =>
    rcases Nat.lt_or_ge 56 s.plen.toNat with hp | hp
    · exact ⟨_, execPktBuild_of_gt a b hd hp, execPktBuild_of_gt (s := { s with latch := w }) a b hd hp⟩
    · exact ⟨_, execPktBuild_of_le a b hd hp, execPktBuild_of_le (s := { s with latch := w }) a b hd hp⟩
  | pktBuildSend a b hd =>
    rcases Nat.lt_or_ge 56 s.plen.toNat with hp | hp
    · exact ⟨_, execPktBuildSend_of_gt a b hd hp, execPktBuildSend_of_gt (s := { s with latch := w }) a b hd hp⟩
    · exact ⟨_, execPktBuildSend_of_le a b hd hp, execPktBuildSend_of_le (s := { s with latch := w }) a b hd hp⟩
  | seqTransmit =>
    rcases Nat.lt_or_ge s.imgCap.toNat s.imgLen.toNat with hp | hp
    · exact ⟨_, execSeqTransmit_of_gt hp, execSeqTransmit_of_gt (s := { s with latch := w }) hp⟩
    · exact ⟨_, execSeqTransmit_of_le hp, execSeqTransmit_of_le (s := { s with latch := w }) hp⟩

/-- An idle engine accepts the word written to CMD (rule R161). -/
theorem submitCommand_of_idle (hidle : s.eph = .idle) (w : Word) : submitCommand w s = acceptCommand w s :=
  if_neg (by simp [hidle])

/-- Settles O4: the decoder reads the used fields only, no command looks at LATCH, and acceptance keeps the word. -/
theorem unusedFieldsAreIgnored : Obligations.UnusedFieldsAreIgnored := by
  refine ⟨fun _ _ => decode_congr, fun i s t w hexec => ?_, fun s w hidle => ?_⟩
  · obtain ⟨u, hu, hlatch⟩ := exec_setLatch i s w
    rw [hexec] at hu
    cases hu
    exact hlatch
  · refine ⟨acceptCommand w s, ?_, acceptCommand_latch ..⟩
    rw [busWrite_register (r := .cmd) rfl rfl, writeRegister, submitCommand_of_idle hidle]

/-! The lines of a host program -/

/-- A turn of the host that polls STATUS (rule R89). -/
theorem step_wait {rest : List HostOp} (ht : s.nextTurn = .host) (hp : s.program = .wait :: rest) :
    step s = .next { s with
      schedule := s.schedule.tail
      program := if s.eph = .idle then rest else s.program
      hostReads := s.hostReads ++ [⟨0x004, 32, s.statusWord⟩] } := by
  have hpoll : hostTurn s.popTurn = .next (pollStatus rest s.popTurn) := by
    rw [hostTurn, popTurn_program, hp]
  have hbusy : (if s.popTurn.busy then s.popTurn.program else rest) = if s.eph = .idle then rest else s.program := by
    by_cases hidle : s.eph = .idle <;> simp [State.busy, hidle]
  rw [step_host ht, hpoll, pollStatus_eq, hbusy]
  rfl

/-- SETPAY is its byte writes, one per byte at rising offsets (rule R89). -/
theorem setPayOps_eq_mapIdx (i : Nat) (bytes : List Byte) :
    setPayOps i bytes = bytes.mapIdx fun j b => wr8 (BitVec.ofNat 32 (0x040 + i + j)) b := by
  induction bytes generalizing i with
  | nil => rfl
  | cons b bs ih =>
    rw [setPayOps, ih, List.mapIdx_cons]
    simp only [Nat.add_zero, Nat.add_assoc, Nat.add_comm 1]

/-- The SEQ_CODES word of SEQ_SETUP by shifts (rules R30, R89). -/
theorem seqCodesWord_eq_or (ld set save : Byte) :
    (0#8 ++ save ++ set ++ ld : Word) =
      save.setWidth 32 <<< 16 ||| set.setWidth 32 <<< 8 ||| ld.setWidth 32 := by
  apply BitVec.eq_of_getLsbD_eq
  intro i hi
  have above (b : Byte) {j : Nat} (hj : 8 ≤ j) : b.getLsbD j = false := BitVec.getLsbD_of_ge b j hj
  simp only [BitVec.getLsbD_append, BitVec.getLsbD_or, BitVec.getLsbD_shiftLeft, BitVec.getLsbD_setWidth]
  grind

/-- Settles O52: each line's expansion is the writes of rule R89. -/
theorem pseudoInstructionsExpand : Obligations.PseudoInstructionsExpand := by
  refine ⟨fun _ _ => step_wait, rfl, fun _ _ => rfl, fun _ _ _ _ => ?_, fun i bytes => ?_, fun i bytes j hj => ?_⟩
  · rw [← seqCodesWord_eq_or]
    rfl
  · rw [HostLine.expand, setPayOps_eq_mapIdx, List.length_mapIdx]
  · refine ⟨bytes[j], List.getElem?_eq_getElem hj, ?_⟩
    rw [HostLine.expand, setPayOps_eq_mapIdx, List.getElem?_mapIdx, List.getElem?_eq_getElem hj]
    rfl

end Sys2Proof.Machine

/-! The checksum engine: crc_step by arithmetic and as a map that loses no information, and the results and the frame of
the CRC commands. -/

namespace Sys2Proof.Machine

variable {s t : State} {i : Instr}

/-! One bit iteration, and crc_step -/

/-- A bit iteration on numbers: doubling modulo 2^16, then XOR with 0x1021 if bit 15 was 1 (rule R100). -/
def crcDouble (n : Nat) : Nat := (2 * n % 65536) ^^^ (if 32768 ≤ n then 0x1021 else 0)

theorem crcBit_eq_xor (c : Half) : crcBit c = c <<< 1 ^^^ (if c.getLsbD 15 then Config.crcPoly else 0) := by
  rw [crcBit]
  split
  · rfl
  · exact BitVec.xor_zero.symm

theorem crcBit_toNat (c : Half) : (crcBit c).toNat = crcDouble c.toNat := by
  have htop : c.getLsbD 15 = decide (32768 ≤ c.toNat) := BitVec.msb_eq_decide c
  have hdouble : (c <<< 1).toNat = 2 * c.toNat % 65536 := by
    rw [BitVec.toNat_shiftLeft, Nat.shiftLeft_eq, Nat.mul_comm]
  rw [crcBit_eq_xor, BitVec.toNat_xor, hdouble, htop, crcDouble]
  by_cases h : 32768 ≤ c.toNat <;> simp [h]

theorem crcBits_toNat (n : Nat) (c : Half) : (crcBits n c).toNat = crcDouble^[n] c.toNat := by
  induction n generalizing c with
  | zero => rfl
  | succ n ih => rw [crcBits, ih, crcBit_toNat, Function.iterate_succ_apply]

/-- The byte stands in the high byte of the register (rule R100). -/
theorem highByte_toNat (b : Byte) : (b.setWidth 16 <<< 8 : Half).toNat = 256 * b.toNat := by
  have := b.isLt
  rw [BitVec.toNat_shiftLeft, BitVec.toNat_setWidth, Nat.shiftLeft_eq]
  omega

/-- Settles O8: one bit iteration on the register is one on its number, hence eight are. -/
theorem crcStepIsEightShiftsWithThePolynomial : Obligations.CrcStepIsEightShiftsWithThePolynomial := fun c b => by
  rw [crcStep, crcBits_toNat, BitVec.toNat_xor, highByte_toNat]
  rfl

/-! crc_step loses no information -/

/-- The bit shifted out comes back as bit 0, since the polynomial is odd (rule R100). -/
theorem crcBit_getLsbD_zero (c : Half) : (crcBit c).getLsbD 0 = c.getLsbD 15 := by
  rw [crcBit_eq_xor, BitVec.getLsbD_xor]
  cases c.getLsbD 15 <;> simp [Config.crcPoly]

theorem crcBit_injective : Function.Injective crcBit := by
  intro c d h
  have htop : c.getLsbD 15 = d.getLsbD 15 := by rw [← crcBit_getLsbD_zero, h, crcBit_getLsbD_zero]
  have hshift : c <<< 1 = d <<< 1 := by
    rw [crcBit_eq_xor, crcBit_eq_xor, htop] at h
    exact (BitVec.xor_left_inj _).1 h
  apply BitVec.eq_of_getLsbD_eq
  intro k hk
  rcases Nat.lt_or_ge k 15 with hlow | hhigh
  · have hbit := congrArg (·.getLsbD (k + 1)) hshift
    simpa [show k + 1 < 16 by omega, BitVec.getLsbD_eq_getElem hk] using hbit
  · rwa [show k = 15 by omega]

theorem crcBits_injective (n : Nat) : Function.Injective (crcBits n) := by
  induction n with
  | zero => exact Function.injective_id
  | succ n ih => exact ih.comp crcBit_injective

theorem crcStep_left_injective (b : Byte) : Function.Injective (crcStep · b) := fun _ _ h =>
  (BitVec.xor_left_inj _).1 (crcBits_injective 8 h)

theorem crcStep_right_injective (c : Half) : Function.Injective (crcStep c) := fun a b h => by
  have hhigh := (BitVec.xor_right_inj _).1 (crcBits_injective 8 h)
  have hnat := congrArg BitVec.toNat hhigh
  rw [highByte_toNat, highByte_toNat] at hnat
  exact BitVec.eq_of_toNat_eq (by omega)

theorem crcFold_injective (bytes : List Byte) : Function.Injective (crcFold · bytes) := by
  induction bytes with
  | nil => exact Function.injective_id
  | cons b bs ih => exact ih.comp (crcStep_left_injective b)

/-- Settles O11: the wrong byte gives another register, and the bytes after it keep different registers different. -/
theorem checksumDetectsOneWrongByte : Obligations.ChecksumDetectsOneWrongByte := by
  intro x y a b hne h
  rw [checksum, checksum, crcFold_append, crcFold_append, crcFold_cons, crcFold_cons] at h
  exact hne (crcStep_right_injective _ (crcFold_injective y h))

/-! The checksum -/

/-- Settles O9: the checksum is that fold by definition, and the reference vector is evaluated. -/
theorem checksumIsTheFoldFromAllOnes : Obligations.ChecksumIsTheFoldFromAllOnes :=
  ⟨fun _ => rfl, by decide +kernel⟩

/-- Settles O10: a fold over an appended list goes on from the first part's value, which is what CRC_PAYLOAD does with
the register. -/
theorem checksumChains : Obligations.ChecksumChains := by
  refine ⟨rfl, crcFold_append _, fun x y s hcrc hplen hpay hy => ?_, by decide, by decide, by decide⟩
  refine ⟨_, execCrcPayload_of_le (by omega), ?_⟩
  rw [finish_crc, hplen, hpay, hcrc]
  exact (crcFold_append _ x y).symm

/-! What the CRC commands do -/

/-- A word's OP value says what it means when its RSV is zero; otherwise it is illegal (rule R85). -/
theorem opMeans_of_decodeOp {op : Byte} {i : Word → Instr} (h : ∀ w, opField w = op → decodeOp w = .ok (i w)) :
    OpMeans op i := fun w hw =>
  ⟨fun hrsv => (decode_of_rsv_zero hrsv).trans (h w hw), fun hrsv => ⟨_, decode_of_rsv_ne_zero hrsv⟩⟩

/-- Settles O12: the word's OP value is CRC_INIT's, and the command is its one update. -/
theorem crcInitResult : Obligations.CrcInitResult :=
  ⟨opMeans_of_decodeOp fun w hw => by rw [decodeOp, hw]; rfl, fun _ => rfl⟩

/-- CRC_BYTE for each byte of a sequence, after a command that has finished, carries CRC over the sequence (rule
R104). -/
theorem execAll_crcByte (bytes : List Byte) (c : Half) (s : State) :
    execAll (bytes.map .crcByte) (finish { s with crc := c }) = .next (finish { s with crc := crcFold c bytes }) := by
  induction bytes generalizing c with
  | nil => rfl
  | cons b bs ih => exact ih (crcStep c b)

/-- Settles O13: CRC_INIT leaves the initial register, over which the CRC_BYTEs carry the checksum. -/
theorem crcByteResult : Obligations.CrcByteResult :=
  ⟨opMeans_of_decodeOp fun w hw => by rw [decodeOp, hw]; rfl, fun _ _ => rfl,
    by decide, by decide, by decide, by decide, fun bytes s => execAll_crcByte bytes Config.crcInit s⟩

/-- Settles O14: the two ranges of PLEN. -/
theorem crcPayloadResult : Obligations.CrcPayloadResult :=
  ⟨opMeans_of_decodeOp fun w hw => by rw [decodeOp, hw]; rfl, fun _ => execCrcPayload_of_le,
    fun _ => execCrcPayload_of_gt⟩

theorem execCrcPkt_eq (s : State) :
    execCrcPkt s = .next (finish { s with crc := checksum (coveredBytes s.pkt) }) := by
  rw [execCrcPkt, crcRegion_eq_coveredBytes]

/-- Settles O15: zeros written over bytes 7..8 leave the bytes that rule R123 says the CRC covers. -/
theorem crcPktResult : Obligations.CrcPktResult :=
  ⟨opMeans_of_decodeOp fun w hw => by rw [decodeOp, hw]; rfl, execCrcPkt_eq⟩

/-- PKT_BUILD leaves a packet whose CRC field is valid, and the same checksum in CRC (rules R123, R127). -/
theorem execPktBuild_crc {a b : Byte} {hd : Bool} (hplen : s.plen.toNat ≤ 56)
    (hbuild : execPktBuild a b hd s = .next t) :
    t.crc = checksum (coveredBytes t.pkt) ∧ crcValid t.pkt := by
  cases (execPktBuild_of_le a b hd hplen).symm.trans hbuild
  exact ⟨buildPacket_checksum .., buildPacket_crcValid ..⟩

/-- Settles O16: CRC_PKT computes the checksum of the bytes that a built packet's own checksum covers. -/
theorem crcPktAfterBuildAgrees : Obligations.CrcPktAfterBuildAgrees := by
  intro s t u a b hd hplen hbuild hcrc
  obtain ⟨hregister, hfield⟩ := execPktBuild_crc hplen hbuild
  cases (execCrcPkt_eq t).symm.trans hcrc
  exact ⟨hregister.symm, hfield.symm⟩

/-! What the CRC commands leave alone -/

/-- No command's DECODE step takes anything off the output port or moves the environment (rules R162, R168). -/
theorem commandEffect_sameEnvironment (he : CommandEffect s i t) : SameEnvironment s t := by
  cases he <;> exact ⟨rfl, rfl, rfl, rfl, rfl, rfl, rfl⟩

/-- NOP and the CRC commands (rules R103 to R106, R165). -/
def IsChecksumCommand (i : Instr) : Prop :=
  i = .nop ∨ i = .crcInit ∨ (∃ a, i = .crcByte a) ∨ i = .crcPayload ∨ i = .crcPkt

/-- Such a command finishes with a value in CRC, NOP with the one CRC had; or it is CRC_PAYLOAD and ends with LENGTH
(rules R103 to R106, R165). -/
theorem IsChecksumCommand.effect (hi : IsChecksumCommand i) (hexec : exec i s = .next t) :
    (∃ c, t = finish { s with crc := c } ∧ (i = .nop → c = s.crc)) ∨
      (i = .crcPayload ∧ 56 < s.plen.toNat ∧ t = raiseError .length s) := by
  obtain rfl | rfl | ⟨a, rfl⟩ | rfl | rfl := hi
  · cases hexec; exact .inl ⟨s.crc, rfl, fun _ => rfl⟩
  · cases hexec; exact .inl ⟨_, rfl, nofun⟩
  · cases hexec; exact .inl ⟨_, rfl, nofun⟩
  · rcases Nat.lt_or_ge 56 s.plen.toNat with hp | hp
    · cases (execCrcPayload_of_gt hp).symm.trans hexec
      exact .inr ⟨rfl, hp, rfl⟩
    · cases (execCrcPayload_of_le hp).symm.trans hexec
      exact .inl ⟨_, rfl, nofun⟩
  · cases hexec; exact .inl ⟨_, rfl, nofun⟩

theorem IsChecksumCommand.ne_imgClear (hi : IsChecksumCommand i) : i ≠ .imgClear := by
  rintro rfl
  simp [IsChecksumCommand] at hi

/-- Settles O17: operands, environment and image by the inversion of every command, the rest by that of these. -/
theorem checksumCommandsFrame : Obligations.ChecksumCommandsFrame := by
  intro i s t (hi : IsChecksumCommand i) hexec
  obtain ⟨u, hu, he⟩ := exec_effect i s
  cases hu.symm.trans hexec
  refine ⟨commandEffect_sameOperands he, commandEffect_sameEnvironment he,
    commandEffect_sameImage he hi.ne_imgClear, ?_⟩
  obtain ⟨c, rfl, hnop⟩ | ⟨rfl, hplen, rfl⟩ := hi.effect hexec
  · exact ⟨rfl, rfl, hnop, fun _ => ⟨rfl, rfl⟩⟩
  · exact ⟨rfl, rfl, nofun, fun hok => absurd hplen (by simpa using hok)⟩

end Sys2Proof.Machine

/-! The packet builder: the results of the four PKT commands and what their DECODE steps leave alone. -/

namespace Sys2Proof.Machine

variable {s t : State} {i : Instr}

/-! What the PKT commands do -/

/-- Settles O18: the command is its one update, by the packet of zero bytes. -/
theorem pktClearResult : Obligations.PktClearResult :=
  ⟨opMeans_of_decodeOp fun w hw => by rw [decodeOp, hw]; rfl, fun _ =>
    ⟨_, rfl, fun _ hi => (Vector.getElem?_eq_getElem hi).trans (congrArg some (zeroPacket_getElem _ hi)), rfl⟩⟩

/-- The checksum that build_packet returns is the one in the packet's CRC field (rules R122, R123). -/
theorem buildPacket_crcField (cmd sub : Byte) (hdr : Option Word) (pay : List Byte) :
    (buildPacket cmd sub hdr pay).2 = (buildPacket cmd sub hdr pay).1[8] ++ (buildPacket cmd sub hdr pay).1[7] :=
  (buildPacket_checksum ..).trans (buildPacket_crcValid ..).symm

/-- Settles O19: up to 56 payload bytes the command stores a built packet, whose layout is build_packet's; above 56 it ends
with LENGTH. -/
theorem pktBuildResult : Obligations.PktBuildResult :=
  ⟨opMeans_of_decodeOp fun w hw => by rw [decodeOp, hw]; rfl,
    fun _ a b h hplen => ⟨_, execPktBuild_of_le a b h hplen, buildPacket_layout .., buildPacket_crcField .., rfl⟩,
    fun _ => execPktBuild_of_gt⟩

/-- Settles O20: the DECODE step moves only the engine phase, so the sink takes the packet that PKT held. -/
theorem pktSendResult : Obligations.PktSendResult :=
  ⟨opMeans_of_decodeOp fun w hw => by rw [decodeOp, hw]; rfl, fun _ _ => ⟨_, rfl, rfl, rfl⟩⟩

/-- Settles O21: the packet is the one PKT_BUILD stores, and the sink's turn ends the command with it logged. -/
theorem pktBuildSendResult : Obligations.PktBuildSendResult :=
  ⟨opMeans_of_decodeOp fun w hw => by rw [decodeOp, hw]; rfl,
    fun _ a b h _ hplen =>
      ⟨_, execPktBuildSend_of_le a b h hplen, buildPacket_layout .., buildPacket_crcField .., rfl, rfl⟩,
    fun _ => execPktBuildSend_of_gt⟩

/-! What the PKT commands leave alone -/

/-- The PKT commands (rules R126 to R129). -/
def IsPacketCommand (i : Instr) : Prop :=
  i = .pktClear ∨ i = .pktSend ∨ ∃ a b h, i = .pktBuild a b h ∨ i = .pktBuildSend a b h

/-- Such a command changes PKT, CRC, DONE and EPH at most, PKT_CLEAR and PKT_SEND keeping CRC and PKT_SEND keeping PKT;
or it is a build whose payload is too long and ends with LENGTH (rules R126 to R129). -/
theorem IsPacketCommand.effect (hi : IsPacketCommand i) (hexec : exec i s = .next t) :
    (∃ c p d e, t = { s with crc := c, pkt := p, done := d, eph := e } ∧
        (i = .pktClear ∨ i = .pktSend → c = s.crc) ∧ (i = .pktSend → p = s.pkt)) ∨
      (¬(i = .pktClear ∨ i = .pktSend ∨ s.plen.toNat ≤ 56) ∧ t = raiseError .length s) := by
  obtain rfl | rfl | ⟨a, b, h, rfl | rfl⟩ := hi
  · cases hexec; exact .inl ⟨_, _, _, _, rfl, fun _ => rfl, nofun⟩
  · cases hexec; exact .inl ⟨_, _, _, _, rfl, fun _ => rfl, fun _ => rfl⟩
  · rcases Nat.lt_or_ge 56 s.plen.toNat with hp | hp
    · cases (execPktBuild_of_gt a b h hp).symm.trans hexec
      exact .inr ⟨by simpa using hp, rfl⟩
    · cases (execPktBuild_of_le a b h hp).symm.trans hexec
      exact .inl ⟨_, _, _, _, rfl, by simp, nofun⟩
  · rcases Nat.lt_or_ge 56 s.plen.toNat with hp | hp
    · cases (execPktBuildSend_of_gt a b h hp).symm.trans hexec
      exact .inr ⟨by simpa using hp, rfl⟩
    · cases (execPktBuildSend_of_le a b h hp).symm.trans hexec
      exact .inl ⟨_, _, _, _, rfl, by simp, nofun⟩

theorem IsPacketCommand.ne_imgClear (hi : IsPacketCommand i) : i ≠ .imgClear := by
  rintro rfl
  simp [IsPacketCommand] at hi

/-- Settles O22: operands, environment and image by the inversion of every command, the rest by that of these. -/
theorem packetCommandsFrame : Obligations.PacketCommandsFrame := by
  intro i s t (hi : IsPacketCommand i) hexec
  have he := exec_cases hexec
  refine ⟨commandEffect_sameOperands he, commandEffect_sameEnvironment he,
    commandEffect_sameImage he hi.ne_imgClear, ?_⟩
  obtain ⟨c, p, d, e, rfl, hcrc, hpkt⟩ | ⟨htoolong, rfl⟩ := hi.effect hexec
  · exact ⟨rfl, hcrc, hpkt, fun _ => ⟨rfl, rfl⟩⟩
  · exact ⟨rfl, fun _ => rfl, fun _ => rfl, fun hok => absurd hok htoolong⟩

end Sys2Proof.Machine

/-! The sequencer: the chunk plan of an image, the two SEQ steps and IMG_CLEAR, and a whole SEQ_TRANSMIT, first with the
engine and the sink alone and then under every interleaving. -/

namespace Sys2Proof.Machine

variable {s t u : State} {size chunk j : Nat}

/-! The chunk plan -/

section
variable (hchunk : 1 ≤ chunk)
include hchunk

/-- A chunk of the plan is one that starts below the end of the image (rule R142). -/
theorem lt_chunkCount_iff : j < chunkCount size chunk ↔ j * chunk < size := by
  rw [chunkCount, ← Nat.succ_le_iff, Nat.le_div_iff_mul_le hchunk, Nat.succ_mul]
  omega

/-- The plan reaches the end of the image (rule R142). -/
theorem size_le_chunkCount_mul : size ≤ chunkCount size chunk * chunk :=
  Nat.not_lt.1 (mt (lt_chunkCount_iff hchunk).2 (Nat.lt_irrefl _))

/-- The last chunk starts below the end of the image (rule R142). -/
theorem chunkCount_mul_lt : chunkCount size chunk * chunk < size + chunk := by
  have := Nat.div_mul_le_self (size + chunk - 1) chunk
  rw [chunkCount]
  omega

end

/-- The last chunk has what the full chunks before it leave: S mod C bytes, or C (rule R142). -/
theorem lastChunk_length {len : Nat} (hlen : j * chunk + len = size) (hpos : 0 < len) (hle : len ≤ chunk) :
    len = if size % chunk = 0 then chunk else size % chunk := by
  have hmod : size % chunk = len % chunk := by rw [← hlen, Nat.mul_add_mod_self_right]
  rcases hle.eq_or_lt with rfl | hlt
  · rw [if_pos (by rw [hmod, Nat.mod_self])]
  · rw [hmod, Nat.mod_eq_of_lt hlt, if_neg hpos.ne']

@[simp] theorem chunks_length (size chunk : Nat) : (chunks size chunk).length = chunkCount size chunk := by
  rw [chunks, List.length_map, List.length_range]

theorem chunks_getElem? (hj : j < chunkCount size chunk) :
    (chunks size chunk)[j]? = some (j * chunk, min chunk (size - j * chunk)) := by
  rw [chunks, List.getElem?_map, List.getElem?_range hj, Option.map_some]

/-- Where the first `j` chunks of the plan end: SEQ_ADDR when that many are packed (rules R142, R146). -/
def chunksEnd (size chunk j : Nat) : Nat := min (j * chunk) size

@[simp] theorem chunksEnd_zero (size chunk : Nat) : chunksEnd size chunk 0 = 0 := by simp [chunksEnd]

/-- A chunk ends where its length ends from its start (rule R146). -/
theorem chunksEnd_succ (size chunk j : Nat) :
    chunksEnd size chunk (j + 1) = chunksEnd size chunk j + min chunk (size - j * chunk) := by
  rw [chunksEnd, chunksEnd, Nat.succ_mul]
  omega

theorem chunksEnd_of_lt (hj : j * chunk < size) : chunksEnd size chunk j = j * chunk := Nat.min_eq_left hj.le

theorem chunksEnd_chunkCount (hchunk : 1 ≤ chunk) : chunksEnd size chunk (chunkCount size chunk) = size :=
  Nat.min_eq_right (size_le_chunkCount_mul hchunk)

/-- The addresses of the first `j` chunks are those up to their end, in order (rule R142). -/
theorem flatMap_chunkAddresses (size chunk j : Nat) :
    ((List.range j).map fun k => (k * chunk, min chunk (size - k * chunk))).flatMap
      (fun c => (List.range c.2).map fun i => c.1 + i) = List.range (chunksEnd size chunk j) := by
  induction j with
  | zero => simp
  | succ j ih =>
    rw [List.range_succ, List.map_append, List.flatMap_append, ih, chunksEnd_succ, List.range_add]
    rcases Nat.lt_or_ge (j * chunk) size with hlt | hge
    · simp [chunksEnd_of_lt hlt]
    · simp [Nat.sub_eq_zero_of_le hge]

/-- Settles O23: a chunk of the plan starts below the end of the image, so it is not empty, and the plan's addresses are
the image's by induction on the number of chunks. -/
theorem chunkPlanCoversTheImageOnce : Obligations.ChunkPlanCoversTheImageOnce := by
  intro size chunk hchunk
  have hreach := size_le_chunkCount_mul (size := size) hchunk
  have hlast := chunkCount_mul_lt (size := size) hchunk
  refine ⟨⟨chunkCount size chunk, chunks_length .., hreach, hlast, fun j hj => ?_⟩, ?_⟩
  · have hstart : j * chunk < size := (lt_chunkCount_iff hchunk).1 hj
    refine ⟨_, chunks_getElem? hj, by omega, fun hnext => ?_, fun hend => ?_⟩
    · have hfull := (lt_chunkCount_iff (j := j + 1) hchunk).1 hnext
      rw [Nat.succ_mul] at hfull
      omega
    · rw [← hend, Nat.succ_mul] at hreach
      exact lastChunk_length (j := j) (by omega) (by omega) (Nat.min_le_left ..)
  · rw [chunks, flatMap_chunkAddresses, chunksEnd_chunkCount hchunk]

/-! The SEQ steps and the two commands -/

/-- The address and the length of a chunk stand in disjoint bits of its header (rule R125). -/
theorem hdrWord_eq_add {a len : Nat} (ha : a < 2 ^ 24) (hlen : len < 2 ^ 8) :
    hdrWord a len = BitVec.ofNat 32 (a + len * 2 ^ 24) := by
  apply BitVec.eq_of_toNat_eq
  have hshift : ((BitVec.ofNat 8 len).setWidth 32 <<< 24).toNat = len <<< 24 := by
    simp only [BitVec.toNat_shiftLeft, BitVec.toNat_setWidth, BitVec.toNat_ofNat, Nat.shiftLeft_eq]
    omega
  have haddr : ((BitVec.ofNat 24 a).setWidth 32).toNat = a := by
    simp only [BitVec.toNat_setWidth, BitVec.toNat_ofNat]
    omega
  rw [hdrWord, BitVec.toNat_or, hshift, haddr, Nat.or_comm, ← Nat.shiftLeft_add_eq_or_of_lt ha, Nat.shiftLeft_eq,
    BitVec.toNat_ofNat]
  omega

theorem seqStep_of_lt (hlt : s.seqAddr.toNat < s.imgLen.toNat) : seqStep s = seqSetStep s := if_pos hlt

theorem seqStep_of_ge (hge : s.imgLen.toNat ≤ s.seqAddr.toNat) : seqStep s = seqSaveStep s :=
  if_neg (Nat.not_lt.2 hge)

/-- The engine's turn in phase SEQ (rules R146, R147). -/
theorem engineTurn_seq (hp : s.eph = .seq) : engineTurn s = .next (seqStep s) := by rw [engineTurn, hp]

/-- Settles O25: the packet is build_packet's, whose header is the sum of two disjoint fields, and the chunk ends inside
the image. -/
theorem seqStepBuildsTheNextSetPacket : Obligations.SeqStepBuildsTheNextSetPacket := by
  intro s hparams hsize hp hlt
  obtain ⟨hpos, hmax⟩ : 1 ≤ s.chunk.toNat ∧ s.chunk.toNat ≤ 56 := (chunkLegal_iff _).1 hparams
  have hlen : s.chunkLen = min s.chunk.toNat (s.imgLen.toNat - s.seqAddr.toNat) := rfl
  have hhdr := hdrWord_eq_add (a := s.seqAddr.toNat) (len := s.chunkLen) (by omega) (by omega)
  refine ⟨seqSetStep s, s.chunkLen, ?_, rfl, by omega, by omega, ?_, buildPacket_crcField ..,
    seqSetStep_seqAddr_toNat hlt.le, rfl⟩
  · rw [takeTurn, engineTurn_seq hp, seqStep_of_lt hlt]
  · rw [← hhdr]
    exact buildPacket_layout ..

/-- Settles O26: the packet is build_packet's, with no header and no payload. -/
theorem seqStepBuildsTheSavePacket : Obligations.SeqStepBuildsTheSavePacket := by
  intro s hp hend
  refine ⟨seqSaveStep s, ?_, buildPacket_layout .., buildPacket_crcField .., rfl⟩
  rw [takeTurn, engineTurn_seq hp, seqStep_of_ge hend]

/-- After IMG_CLEAR the capacity reads zero and every other address what its reset drew for it (rule R150). -/
theorem imgByte_zeros (s : State) (n a : Nat) :
    State.imgByte { s with img := Memory.zeros n } a = if a < n then 0 else Config.imgDraw s.resets a := by
  rw [State.imgByte, Memory.lookup_zeros]
  split <;> rfl

/-- Settles O31: the command lists a zero for every address below the capacity. -/
theorem imgClearResult : Obligations.ImgClearResult := by
  refine ⟨opMeans_of_decodeOp fun w hw => by rw [decodeOp, hw]; rfl, fun s => ⟨_, rfl, fun a ha => ?_, rfl⟩⟩
  exact (imgByte_zeros s _ a).trans (if_pos ha)

theorem Memory.lookup_eq_none {m : Memory} {a : Nat} (h : ∀ c ∈ m, c.1 ≠ a) : m.lookup a = none := by
  induction m with
  | nil => rfl
  | cons c m ih =>
    obtain ⟨hc, hm⟩ := List.forall_mem_cons.1 h
    rw [Memory.lookup_cons, if_neg hc, ih hm]

/-- The image memory lists nothing outside the capacity, so what is read there is the draw of the reset (rule R37). -/
theorem imgByte_outside (hinv : s.Inv) {a : Nat} (ha : s.imgCap.toNat ≤ a) :
    s.imgByte a = Config.imgDraw s.resets a := by
  rw [State.imgByte, Memory.lookup_eq_none fun c hc => ((hinv.imgInside c hc).trans_le ha).ne, Option.getD_none]

/-- SEQ_TRANSMIT's DECODE step builds nothing yet (rules R145, R183). -/
theorem execSeqTransmit_keeps_packet (hexec : execSeqTransmit s = .next t) : t.pkt = s.pkt ∧ t.crc = s.crc := by
  rcases Nat.lt_or_ge s.imgCap.toNat s.imgLen.toNat with hgt | hle
  · cases (execSeqTransmit_of_gt hgt).symm.trans hexec
    exact ⟨rfl, rfl⟩
  · cases (execSeqTransmit_of_le hle).symm.trans hexec
    exact ⟨rfl, rfl⟩

/-- Settles O32: operands, environment and SEQ_TRANSMIT's image by the inversion of every command; outside the capacity
IMG_CLEAR's memory lists no byte, and by the invariant none was listed before. -/
theorem sequencerCommandsFrame : Obligations.SequencerCommandsFrame := by
  intro i s t hinv hi hexec
  have he := exec_cases hexec
  refine ⟨commandEffect_sameOperands he, commandEffect_sameEnvironment he, ?_⟩
  obtain rfl | rfl := hi
  · obtain ⟨hpkt, hcrc⟩ := execSeqTransmit_keeps_packet hexec
    exact ⟨hpkt, hcrc, fun _ => commandEffect_sameImage he nofun, nofun⟩
  · cases hexec
    refine ⟨rfl, rfl, nofun, fun _ => ⟨rfl, rfl, rfl, fun a ha => ?_⟩⟩
    rw [imgByte_outside hinv ha]
    exact (imgByte_zeros s _ a).trans (if_neg (Nat.not_lt.2 ha))

/-! The packets of a transmit -/

/-- The two states agree on everything the plan of a transmit and its packets are made of (rules R142, R146, R147). -/
structure SamePlan (s t : State) : Prop where
  imgLen : t.imgLen = s.imgLen
  seqCodes : t.seqCodes = s.seqCodes
  chunk : t.chunk = s.chunk
  img : t.img = s.img
  resets : t.resets = s.resets

theorem SamePlan.savePacket_eq (h : SamePlan s t) : savePacket t = savePacket s := by
  simp only [savePacket, State.ldCmd, State.saveSub, h.seqCodes]

theorem SamePlan.transmitPackets_eq (h : SamePlan s t) : transmitPackets t = transmitPackets s := by
  simp only [transmitPackets, State.ldCmd, State.setSub, State.saveSub, h.imgLen, h.seqCodes, h.chunk,
    imgBytes_congr h.img h.resets]

/-- `K`, the number of Set packets of the image in IMG (rule R142). -/
def State.setCount (s : State) : Nat := chunkCount s.imgLen.toNat s.chunk.toNat

theorem SamePlan.setCount_eq (h : SamePlan s t) : t.setCount = s.setCount := by
  rw [State.setCount, h.imgLen, h.chunk, State.setCount]

/-- The Set packets come first, in the order of the chunks (rule R149). -/
theorem transmitPackets_set (hj : j < s.setCount) :
    (transmitPackets s)[j]? =
      some (setPacket s (j * s.chunk.toNat) (min s.chunk.toNat (s.imgLen.toNat - j * s.chunk.toNat))).1 := by
  rw [transmitPackets, List.getElem?_append_left (by simpa [State.setCount] using hj), List.getElem?_map,
    chunks_getElem? hj]
  rfl

/-- The Save packet comes last (rule R149). -/
theorem transmitPackets_save (s : State) : (transmitPackets s)[s.setCount]? = some (savePacket s).1 := by
  rw [transmitPackets, List.getElem?_append_right (by simp [State.setCount])]
  simp [State.setCount]

/-! The sequencer's place in the plan -/

/-- The sequencer has packed the first `j` chunks of the plan and no more (rules R145, R148). -/
def State.Packed (s : State) (j : Nat) : Prop :=
  j ≤ s.setCount ∧ s.seqAddr.toNat = chunksEnd s.imgLen.toNat s.chunk.toNat j

theorem State.Packed.congr (h : s.Packed j) (himgLen : t.imgLen = s.imgLen) (hchunk : t.chunk = s.chunk)
    (haddr : t.seqAddr = s.seqAddr) : t.Packed j := by
  rwa [State.Packed, State.setCount, himgLen, hchunk, haddr]

theorem packed_zero (haddr : s.seqAddr = 0) : s.Packed 0 :=
  ⟨Nat.zero_le _, by rw [haddr, chunksEnd_zero]; rfl⟩

/-- The sequencer packs the plan's next chunk, if there is one left (rule R146). -/
theorem State.Packed.next (hchunk : 1 ≤ s.chunk.toNat) (h : s.Packed j) (hlt : s.seqAddr.toNat < s.imgLen.toNat) :
    (seqSetStep s).Packed (j + 1) ∧ (transmitPackets s)[j]? = some (seqSetStep s).pkt := by
  obtain ⟨hj, haddr⟩ := h
  have hstart : j * s.chunk.toNat < s.imgLen.toNat := by
    rw [haddr, chunksEnd] at hlt
    omega
  have hnext : j < s.setCount := (lt_chunkCount_iff hchunk).2 hstart
  have haddr' : s.seqAddr.toNat = j * s.chunk.toNat := haddr.trans (chunksEnd_of_lt hstart)
  have hlen : s.chunkLen = min s.chunk.toNat (s.imgLen.toNat - j * s.chunk.toNat) := by rw [State.chunkLen, haddr']
  refine ⟨⟨hnext, ?_⟩, ?_⟩
  · rw [seqSetStep_seqAddr_toNat hlt.le, haddr, hlen]
    exact (chunksEnd_succ ..).symm
  · rw [transmitPackets_set hnext, seqSetStep_pkt, haddr', hlen]

/-- Where no byte is left to pack, all the chunks of the plan are packed (rules R147, R148). -/
theorem State.Packed.eq_setCount (hchunk : 1 ≤ s.chunk.toNat) (h : s.Packed j)
    (hend : s.imgLen.toNat ≤ s.seqAddr.toNat) : j = s.setCount ∧ s.seqAddr = s.imgLen := by
  obtain ⟨hj, haddr⟩ := h
  have hdone : ¬j < s.setCount := fun hlt => by
    have hstart := (lt_chunkCount_iff hchunk).1 hlt
    rw [haddr, chunksEnd_of_lt hstart] at hend
    omega
  have hle : s.seqAddr.toNat ≤ s.imgLen.toNat := haddr ▸ Nat.min_le_right ..
  exact ⟨by omega, BitVec.eq_of_toNat_eq (hle.antisymm hend)⟩

/-- The packets from place `j` on begin with the one at `j`. -/
theorem zipWith_drop_transmitPackets {p : Packet} (hp : (transmitPackets s)[j]? = some p) (o : SinkOutcome)
    (outcomes : List SinkOutcome) :
    List.zipWith Emission.mk ((transmitPackets s).drop j) (o :: outcomes) =
      ⟨p, o⟩ :: List.zipWith Emission.mk ((transmitPackets s).drop (j + 1)) outcomes := by
  rw [List.drop_eq_getElem?_toList_append, hp]
  rfl

/-- What PKT_COUNT counts of one packet and of those after it (rule R32). -/
theorem pktCount_add_succ (c : Word) (n : Nat) : c + 1 + BitVec.ofNat 32 n = c + BitVec.ofNat 32 (n + 1) := by
  rw [BitVec.ofNat_add, BitVec.add_comm (BitVec.ofNat 32 n), BitVec.add_assoc]
  rfl

/-! A transmit in which only the engine and the sink move -/

theorem popTurn_samePlan (s : State) : SamePlan s s.popTurn := ⟨rfl, rfl, rfl, rfl, rfl⟩

/-- A SEQ step and the emission of its packet (rule R167). -/
theorem run_packet {o : SinkOutcome} {k : AfterEmit} {rest : List Turn} {n : Nat} (hp : s.eph = .seq)
    (hs : s.schedule = .engine :: .sink o :: rest) (hbuilt : seqStep s.popTurn = t) (hk : t.eph = .emit k)
    (ht : t.schedule = .sink o :: rest) : run (n + 2) s = run n (emission k o t.popTurn) := by
  rw [run_succ (step_seq (nextTurn_cons s _ _ hs) hp), hbuilt, run_succ (step_emit (nextTurn_cons t _ _ ht) hk)]

/-- The state with the packet `built` in PKT and the command finished (rule R163); the schedule, SEQ_ADDR, OUT,
PKT_COUNT and TXDROP are as given. -/
def State.completed (s : State) (built : Packet × Half) (rest : List Turn) (addr : BitVec 25) (out : List Emission)
    (count : Word) (drop : Bool) : State :=
  { s with
    schedule := rest
    seqAddr := addr
    pkt := built.1
    crc := built.2
    out := out
    pktCount := count
    txdrop := drop
    done := true
    eph := .idle }

/-- The emission of a last packet ends the command (rule R169). -/
theorem emission_final_eq_completed (s : State) (built : Packet × Half) (o : SinkOutcome) :
    emission .final o (State.popTurn { storePacket built s with eph := .emit .final }) =
      s.completed built s.schedule.tail s.seqAddr (s.out ++ [⟨built.1, o⟩]) (s.pktCount + 1)
        (s.txdrop || decide (o = .dropped)) := rfl

/-- A packet built and taken on the way to the end does not show in it but for what is logged. -/
theorem completed_emission_more (s : State) (built built' : Packet × Half) (addr addr' : BitVec 25) (o : SinkOutcome)
    (rest : List Turn) (out : List Emission) (count : Word) (drop : Bool) :
    State.completed
        (emission .more o (State.popTurn { storePacket built' s with seqAddr := addr', eph := .emit .more }))
        built rest addr out count drop =
      s.completed built rest addr out count drop := rfl

/-- The end of a transmit of which the packets from place `j` on were still to come, with what the sink made of them
(rules R149, R167, R169). -/
def State.transmitted (s : State) (rest : List Turn) (j : Nat) (outcomes : List SinkOutcome) : State :=
  s.completed (savePacket s) rest s.imgLen
    (s.out ++ List.zipWith Emission.mk ((transmitPackets s).drop j) outcomes)
    (s.pktCount + BitVec.ofNat 32 outcomes.length)
    (s.txdrop || outcomes.any (fun o => decide (o = .dropped)))

/-- Where the sequencer stands in `s` and what the schedule is do not show in the end. -/
theorem transmitted_setPhase (s : State) (turns : List Turn) (addr : BitVec 25) (phase : Phase) (rest : List Turn)
    (j : Nat) (outcomes : List SinkOutcome) :
    State.transmitted { s with schedule := turns, seqAddr := addr, eph := phase } rest j outcomes =
      s.transmitted rest j outcomes := by
  have hsame : SamePlan s { s with schedule := turns, seqAddr := addr, eph := phase } :=
    ⟨rfl, rfl, rfl, rfl, rfl⟩
  rw [State.transmitted, hsame.savePacket_eq, hsame.transmitPackets_eq]
  rfl

/-- The packet at place `j` and those after it, logged one by one and at once (rule R169). -/
theorem transmitted_cons {p : Packet} (hp : (transmitPackets s)[j]? = some p) (rest : List Turn) (o : SinkOutcome)
    (outcomes : List SinkOutcome) :
    s.transmitted rest j (o :: outcomes) =
      s.completed (savePacket s) rest s.imgLen
        (s.out ++ [⟨p, o⟩] ++ List.zipWith Emission.mk ((transmitPackets s).drop (j + 1)) outcomes)
        (s.pktCount + 1 + BitVec.ofNat 32 outcomes.length)
        (s.txdrop || decide (o = .dropped) || outcomes.any (fun o => decide (o = .dropped))) := by
  rw [State.transmitted, zipWith_drop_transmitPackets hp, List.append_assoc, pktCount_add_succ, Bool.or_assoc]
  rfl

/-- The state after a Set packet is built and taken (rules R146, R169). -/
def State.afterSet (s : State) (o : SinkOutcome) : State := emission .more o (seqSetStep s).popTurn

theorem afterSet_samePlan (s : State) (o : SinkOutcome) : SamePlan s (s.afterSet o) := by
  constructor <;> simp [State.afterSet]

theorem afterSet_packed (h : (seqSetStep s).Packed j) (o : SinkOutcome) : (s.afterSet o).Packed j :=
  h.congr (emission_imgLen ..) (emission_chunk ..) (emission_seqAddr ..)

/-- The end of a transmit is the same from before a Set packet and from after it. -/
theorem transmitted_afterSet (hpkt : (transmitPackets s)[j]? = some (seqSetStep s).pkt) (rest : List Turn)
    (o : SinkOutcome) (outcomes : List SinkOutcome) :
    (s.afterSet o).transmitted rest (j + 1) outcomes = s.transmitted rest j (o :: outcomes) := by
  have hsame := afterSet_samePlan s o
  rw [transmitted_cons hpkt, State.transmitted, hsame.savePacket_eq, hsame.transmitPackets_eq, hsame.imgLen,
    ← completed_emission_more s _ (setPacket s s.seqAddr.toNat s.chunkLen) _ _ o]
  rfl

/-- The Save packet, built and taken, ends the transmit (rules R147, R169). -/
theorem emission_seqSaveStep (haddr : s.seqAddr = s.imgLen) (o : SinkOutcome) :
    emission .final o (seqSaveStep s).popTurn = s.transmitted s.schedule.tail s.setCount [o] := by
  rw [transmitted_cons (transmitPackets_save s), ← haddr, List.zipWith_nil_right, List.append_nil, List.length_nil,
    List.any_nil, Bool.or_false, BitVec.add_zero]
  exact emission_final_eq_completed ..

/-- From any place in the plan, a SEQ step and an EMIT step for each packet that is left complete the transmit. -/
theorem run_transmit {outcomes : List SinkOutcome} {rest : List Turn} (hchunk : 1 ≤ s.chunk.toNat) (hp : s.eph = .seq)
    (hpacked : s.Packed j) (hlen : j + outcomes.length = s.setCount + 1)
    (hs : s.schedule = outcomes.flatMap (fun o => [.engine, .sink o]) ++ rest) :
    run (2 * outcomes.length) s = .next (s.transmitted rest j outcomes) := by
  induction outcomes generalizing s j with
  | nil =>
    obtain ⟨hj, -⟩ := hpacked
    rw [List.length_nil] at hlen
    omega
  | cons o outcomes ih =>
    rw [List.length_cons] at hlen ⊢
    have hturns : s.popTurn.schedule = .sink o :: (outcomes.flatMap (fun o => [.engine, .sink o]) ++ rest) := by
      rw [popTurn_schedule, hs]
      rfl
    have hpacked : s.popTurn.Packed j := hpacked.congr rfl rfl rfl
    have hcount : s.popTurn.setCount = s.setCount := (popTurn_samePlan s).setCount_eq
    have hend : s.popTurn.transmitted rest j (o :: outcomes) = s.transmitted rest j (o :: outcomes) :=
      transmitted_setPhase s s.schedule.tail s.seqAddr s.eph rest j (o :: outcomes)
    rw [Nat.mul_succ, ← hend]
    rcases Nat.lt_or_ge s.popTurn.seqAddr.toNat s.popTurn.imgLen.toNat with hlt | hge
    · have hbuilt : seqStep s.popTurn = seqSetStep s.popTurn := seqStep_of_lt hlt
      obtain ⟨hpacked', hpkt⟩ := State.Packed.next (s := s.popTurn) hchunk hpacked hlt
      rw [run_packet hp hs hbuilt rfl hturns, ← State.afterSet, ← transmitted_afterSet hpkt]
      have hsame := afterSet_samePlan s.popTurn o
      refine ih ?_ rfl (afterSet_packed hpacked' o) ?_ ?_
      · rwa [hsame.chunk]
      · rw [hsame.setCount_eq, hcount]
        omega
      · simp [State.afterSet, hs]
    · obtain ⟨rfl, haddr⟩ := State.Packed.eq_setCount (s := s.popTurn) hchunk hpacked hge
      obtain rfl : outcomes = [] := List.eq_nil_of_length_eq_zero (by omega)
      have hbuilt : seqStep s.popTurn = seqSaveStep s.popTurn := seqStep_of_ge hge
      rw [List.length_nil, Nat.mul_zero, run_packet hp hs hbuilt rfl hturns, run_zero,
        emission_seqSaveStep (s := s.popTurn) haddr, hturns]
      rfl

/-- The state in which SEQ_TRANSMIT has started the sequencer (rule R145). -/
def State.started (s : State) : State := { s with seqAddr := 0, eph := .seq }

theorem started_samePlan (s : State) : SamePlan s s.started := ⟨rfl, rfl, rfl, rfl, rfl⟩

theorem step_seqTransmit (ht : s.nextTurn = .engine) (hp : s.eph = .decode) (hd : decode s.latch = .ok .seqTransmit)
    (hfits : s.imgLen.toNat ≤ s.imgCap.toNat) : step s = .next s.popTurn.started :=
  (step_command ht hp hd).trans (execSeqTransmit_of_le (s := s.popTurn) hfits)

/-- Settles O27: the DECODE step starts the sequencer at place 0 of the plan, and from any place the packets that are left
are built and taken, by induction on their outcomes. -/
theorem transmitEmitsTheWholeImageInOrder : Obligations.TransmitEmitsTheWholeImageInOrder := by
  intro s outcomes rest hparams hfits hp hd hlen hs
  obtain ⟨⟨hchunk, -⟩, -⟩ := (params_wellFormed_iff s).1 hparams
  have hcount : 0 + outcomes.length = s.setCount + 1 := (Nat.zero_add _).trans hlen
  have hleft : s.popTurn.started.schedule = outcomes.flatMap (fun o => [.engine, .sink o]) ++ rest :=
    congrArg List.tail hs
  rw [run_succ (step_seqTransmit (nextTurn_cons _ _ _ hs) hp hd hfits),
    run_transmit (s := s.popTurn.started) hchunk rfl (packed_zero rfl) hcount hleft]
  refine congrArg Host.Outcome.next ((transmitted_setPhase s s.schedule.tail 0 .seq rest 0 outcomes).trans ?_)
  rw [State.transmitted, List.drop_zero, savePacket_eq]
  rfl

/-! A transmit under every interleaving -/

/-- The machine is in a SEQ_TRANSMIT of which `j` packets are taken: what each phase of the engine says of SEQ_ADDR and of
the packet in PKT (rules R145 to R149). -/
def State.TransmitAt (s : State) (j : Nat) : Prop :=
  match s.eph with
  | .decode => j = 0 ∧ decode s.latch = .ok .seqTransmit ∧ s.imgLen.toNat ≤ s.imgCap.toNat
  | .seq => s.Packed j
  | .emit .more => s.Packed (j + 1) ∧ (transmitPackets s)[j]? = some s.pkt
  | .emit .final => j = s.setCount ∧ s.seqAddr = s.imgLen ∧ s.pkt = (savePacket s).1 ∧ s.crc = (savePacket s).2
  | .idle => j = s.setCount + 1 ∧ s.seqAddr = s.imgLen ∧ s.pkt = (savePacket s).1 ∧ s.crc = (savePacket s).2 ∧
      s.done = true

theorem transmitAt_of_decode (hp : s.eph = .decode) :
    s.TransmitAt j ↔ j = 0 ∧ decode s.latch = .ok .seqTransmit ∧ s.imgLen.toNat ≤ s.imgCap.toNat := by
  rw [State.TransmitAt, hp]

theorem transmitAt_of_seq (hp : s.eph = .seq) : s.TransmitAt j ↔ s.Packed j := by
  rw [State.TransmitAt, hp]

theorem transmitAt_of_emit_more (hp : s.eph = .emit .more) :
    s.TransmitAt j ↔ s.Packed (j + 1) ∧ (transmitPackets s)[j]? = some s.pkt := by
  rw [State.TransmitAt, hp]

theorem transmitAt_of_emit_final (hp : s.eph = .emit .final) :
    s.TransmitAt j ↔ j = s.setCount ∧ s.seqAddr = s.imgLen ∧ s.pkt = (savePacket s).1 ∧ s.crc = (savePacket s).2 := by
  rw [State.TransmitAt, hp]

theorem transmitAt_of_idle (hp : s.eph = .idle) :
    s.TransmitAt j ↔ j = s.setCount + 1 ∧ s.seqAddr = s.imgLen ∧ s.pkt = (savePacket s).1 ∧
      s.crc = (savePacket s).2 ∧ s.done = true := by
  rw [State.TransmitAt, hp]

/-- The place in a transmit in progress does not depend on what the host can change meanwhile (rules R59, R71). -/
theorem State.TransmitAt.congr (h : s.TransmitAt j) (hbusy : s.eph ≠ .idle) (hsame : SamePlan s t)
    (heph : t.eph = s.eph) (hlatch : t.latch = s.latch) (hcap : t.imgCap = s.imgCap) (haddr : t.seqAddr = s.seqAddr)
    (hpkt : t.pkt = s.pkt) (hcrc : t.crc = s.crc) : t.TransmitAt j := by
  have hpacked (i : Nat) : s.Packed i → t.Packed i := (·.congr hsame.imgLen hsame.chunk haddr)
  match hp : s.eph with
  | .idle => exact absurd hp hbusy
  | .decode =>
    rw [transmitAt_of_decode hp] at h
    rwa [transmitAt_of_decode (heph.trans hp), hlatch, hsame.imgLen, hcap]
  | .seq =>
    rw [transmitAt_of_seq hp] at h
    rw [transmitAt_of_seq (heph.trans hp)]
    exact hpacked j h
  | .emit .more =>
    rw [transmitAt_of_emit_more hp] at h
    rw [transmitAt_of_emit_more (heph.trans hp), hsame.transmitPackets_eq, hpkt]
    exact h.imp_left (hpacked _)
  | .emit .final =>
    rw [transmitAt_of_emit_final hp] at h
    rwa [transmitAt_of_emit_final (heph.trans hp), hsame.setCount_eq, hsame.savePacket_eq, haddr, hsame.imgLen, hpkt,
      hcrc]

/-- What a step other than reset does to a transmit in progress: it takes no packet, or it takes the plan's next. -/
inductive TransmitStep (s : State) (j : Nat) (t : State) : Prop
  | quiet (hsame : SamePlan s t) (hout : t.out = s.out) (hcount : t.pktCount = s.pktCount)
      (hat : t.TransmitAt j)
  | taken (o : SinkOutcome) (p : Packet) (hp : (transmitPackets s)[j]? = some p) (hsame : SamePlan s t)
      (hout : t.out = s.out ++ [⟨p, o⟩]) (hcount : t.pktCount = s.pktCount + 1) (hat : t.TransmitAt (j + 1))

theorem hostEffect_transmitStep (hat : s.TransmitAt j) (hbusy : s.eph ≠ .idle) (he : HostEffect s t) :
    TransmitStep s j t := by
  obtain ⟨hout, hcount, hchunk, hcap, hpkt, haddr, -, hresets⟩ := hostEffect_frame he
  obtain ⟨heph, hlatch, hcrc, -, -, himgLen, hcodes, -, himg⟩ := hostEffect_busy_frame he hbusy
  have hsame : SamePlan s t := ⟨himgLen, hcodes, hchunk, himg, hresets⟩
  exact .quiet hsame hout hcount (hat.congr hbusy hsame heph hlatch hcap haddr hpkt hcrc)

theorem seqSetStep_transmitStep (hchunk : 1 ≤ s.chunk.toNat) (hat : s.TransmitAt j) (hp : s.eph = .seq)
    (hlt : s.seqAddr.toNat < s.imgLen.toNat) : TransmitStep s j (seqSetStep s) := by
  have hsame : SamePlan s (seqSetStep s) := ⟨rfl, rfl, rfl, rfl, rfl⟩
  obtain ⟨hpacked, hpkt⟩ := ((transmitAt_of_seq hp).1 hat).next hchunk hlt
  exact .quiet hsame rfl rfl ((transmitAt_of_emit_more rfl).2 ⟨hpacked, hsame.transmitPackets_eq ▸ hpkt⟩)

theorem seqSaveStep_transmitStep (hchunk : 1 ≤ s.chunk.toNat) (hat : s.TransmitAt j) (hp : s.eph = .seq)
    (hend : s.imgLen.toNat ≤ s.seqAddr.toNat) : TransmitStep s j (seqSaveStep s) := by
  have hsame : SamePlan s (seqSaveStep s) :=
    ⟨seqSaveStep_imgLen s, seqSaveStep_seqCodes s, seqSaveStep_chunk s, seqSaveStep_img s, seqSaveStep_resets s⟩
  obtain ⟨hj, haddr⟩ := ((transmitAt_of_seq hp).1 hat).eq_setCount hchunk hend
  refine .quiet hsame (seqSaveStep_out s) (seqSaveStep_pktCount s) ((transmitAt_of_emit_final (seqSaveStep_eph s)).2 ?_)
  rw [hsame.setCount_eq, hsame.savePacket_eq, hsame.imgLen, seqSaveStep_seqAddr]
  exact ⟨hj, haddr, seqSaveStep_pkt s, seqSaveStep_crc s⟩

theorem emission_samePlan (s : State) (k : AfterEmit) (o : SinkOutcome) :
    SamePlan s (emission k o s) :=
  ⟨emission_imgLen .., emission_seqCodes .., emission_chunk .., emission_img .., emission_resets ..⟩

theorem emission_transmitStep {k : AfterEmit} (hat : s.TransmitAt j) (hp : s.eph = .emit k) (o : SinkOutcome) :
    TransmitStep s j (emission k o s) := by
  have hsame := emission_samePlan s k o
  cases k with
  | more =>
    obtain ⟨hpacked, hpkt⟩ := (transmitAt_of_emit_more hp).1 hat
    exact .taken o s.pkt hpkt hsame rfl rfl ((transmitAt_of_seq rfl).2 (hpacked.congr rfl rfl rfl))
  | final =>
    obtain ⟨rfl, haddr, hpkt, hcrc⟩ := (transmitAt_of_emit_final hp).1 hat
    exact .taken o s.pkt (hpkt ▸ transmitPackets_save s) hsame rfl rfl
      ((transmitAt_of_idle rfl).2 ⟨rfl, haddr, hpkt, hcrc, rfl⟩)

/-- A turn with no DECODE step and no reset in it. -/
theorem turnEffect_transmitStep {x : Turn} (hchunk : 1 ≤ s.chunk.toNat) (hat : s.TransmitAt j) (hbusy : s.eph ≠ .idle)
    (hreset : x ≠ .reset) (hdecode : x = .engine → s.eph ≠ .decode) (he : TurnEffect s x t) : TransmitStep s j t := by
  cases he with
  | host _ he => exact hostEffect_transmitStep hat hbusy he
  | waiting => exact .quiet ⟨rfl, rfl, rfl, rfl, rfl⟩ rfl rfl hat
  | command _ _ hp => exact absurd hp (hdecode rfl)
  | illegal _ hp => exact absurd hp (hdecode rfl)
  | seqSet hp hlt => exact seqSetStep_transmitStep hchunk hat hp hlt
  | seqSave hp hend => exact seqSaveStep_transmitStep hchunk hat hp hend
  | emitted k o hp => exact emission_transmitStep hat hp o
  | reset => exact absurd rfl hreset

theorem started_transmitStep (s : State) : TransmitStep s 0 s.started :=
  .quiet (started_samePlan s) rfl rfl ((transmitAt_of_seq rfl).2 (packed_zero rfl))

/-- One step of the machine. -/
theorem step_transmitStep (hchunk : 1 ≤ s.chunk.toNat) (hat : s.TransmitAt j) (hbusy : s.eph ≠ .idle)
    (hreset : s.nextTurn ≠ .reset) (hstep : step s = .next t) : TransmitStep s.popTurn j t := by
  have hat' : s.popTurn.TransmitAt j := hat.congr hbusy (popTurn_samePlan s) rfl rfl rfl rfl rfl rfl
  by_cases hdecode : s.nextTurn = .engine ∧ s.eph = .decode
  · obtain ⟨hturn, hp⟩ := hdecode
    obtain ⟨rfl, hd, hfits⟩ := (transmitAt_of_decode hp).1 hat
    cases (step_seqTransmit hturn hp hd hfits).symm.trans hstep
    exact started_transmitStep s.popTurn
  · exact turnEffect_transmitStep hchunk hat' hbusy hreset (fun hturn hp => hdecode ⟨hturn, hp⟩) (step_cases hstep)

/-! The schedule -/

/-- A step takes its turn off the schedule and leaves the others. -/
theorem turnEffect_schedule {x : Turn} (he : TurnEffect s x t) : t.schedule = s.schedule := by
  cases he with
  | host _ he =>
    obtain ⟨-, -, -, -, -, -, hschedule, -⟩ := hostEffect_frame he
    exact hschedule
  | command _ _ _ _ he => exact (commandEffect_sameEnvironment he).schedule
  | seqSave => exact seqSaveStep_schedule s
  | emitted => exact emission_schedule ..
  | waiting | illegal | seqSet | reset => rfl

/-- Without a reset in the schedule no turn is one (rule R70; log 5). -/
theorem nextTurn_ne_reset (hs : ∀ x ∈ s.schedule, x ≠ .reset) : s.nextTurn ≠ .reset := by
  rw [State.nextTurn]
  split
  · exact hs _ (by simp [*])
  · split <;> decide

theorem runToIdle_of_idle (hidle : s.eph = .idle) (n : Nat) : runToIdle n s = .next s := by
  cases n with
  | zero => rfl
  | succ n => rw [runToIdle, if_pos hidle]

theorem runToIdle_succ_cases {n : Nat} (hbusy : s.eph ≠ .idle) (h : runToIdle (n + 1) s = .next t) :
    ∃ u, step s = .next u ∧ runToIdle n u = .next t := by
  rw [runToIdle, if_neg hbusy] at h
  split at h
  · exact ⟨_, ‹_›, h⟩
  all_goals cases h

/-! What a completed transmit has offered -/

/-- From `s`, with `j` packets of the plan taken, the transmit has come to its end `t`: the packets from place `j` on are
logged, each with an outcome (rules R147, R149, R169). -/
def CompletedFrom (s : State) (j : Nat) (t : State) : Prop :=
  ∃ outcomes : List SinkOutcome, j + outcomes.length = s.setCount + 1 ∧
    t.out = s.out ++ List.zipWith Emission.mk ((transmitPackets s).drop j) outcomes ∧
    t.pktCount = s.pktCount + BitVec.ofNat 32 outcomes.length ∧
    t.seqAddr = s.imgLen ∧ t.pkt = (savePacket s).1 ∧ t.crc = (savePacket s).2 ∧ t.done = true

theorem completedFrom_of_idle (hat : s.TransmitAt j) (hidle : s.eph = .idle) : CompletedFrom s j s := by
  obtain ⟨hj, haddr, hpkt, hcrc, hdone⟩ := (transmitAt_of_idle hidle).1 hat
  exact ⟨[], hj, by simp, by simp, haddr, hpkt, hcrc, hdone⟩

theorem CompletedFrom.of_quiet (h : CompletedFrom u j t) (hsame : SamePlan s u) (hout : u.out = s.out)
    (hcount : u.pktCount = s.pktCount) : CompletedFrom s j t := by
  rwa [CompletedFrom, ← hsame.setCount_eq, ← hsame.transmitPackets_eq, ← hsame.savePacket_eq, ← hsame.imgLen, ← hout,
    ← hcount]

theorem CompletedFrom.of_taken {p : Packet} {o : SinkOutcome} (h : CompletedFrom u (j + 1) t)
    (hp : (transmitPackets s)[j]? = some p) (hsame : SamePlan s u) (hout : u.out = s.out ++ [⟨p, o⟩])
    (hcount : u.pktCount = s.pktCount + 1) : CompletedFrom s j t := by
  obtain ⟨outcomes, hlen, hout', hcount', hend⟩ := h
  rw [hsame.setCount_eq] at hlen
  rw [hsame.savePacket_eq, hsame.imgLen] at hend
  refine ⟨o :: outcomes, ?_, ?_, ?_, hend⟩
  · rw [List.length_cons]
    omega
  · rw [hout', hout, hsame.transmitPackets_eq, zipWith_drop_transmitPackets hp, List.append_assoc]
    rfl
  · rw [hcount', hcount, pktCount_add_succ, List.length_cons]

/-- By induction on the number of steps: from any place in a transmit, the packets taken until the engine is idle are
the plan's from that place on. -/
theorem completedFrom_of_runToIdle {n : Nat} (hchunk : 1 ≤ s.chunk.toNat) (hat : s.TransmitAt j)
    (hs : ∀ x ∈ s.schedule, x ≠ .reset) (hrun : runToIdle n s = .next t) (hidle : t.eph = .idle) :
    CompletedFrom s j t := by
  induction n generalizing s j with
  | zero =>
    cases hrun
    exact completedFrom_of_idle hat hidle
  | succ n ih =>
    by_cases hbusy : s.eph = .idle
    · cases (runToIdle_of_idle hbusy _).symm.trans hrun
      exact completedFrom_of_idle hat hidle
    · obtain ⟨u, hstep, hrun⟩ := runToIdle_succ_cases hbusy hrun
      have hschedule : u.schedule = s.schedule.tail := turnEffect_schedule (step_cases hstep)
      have hs' : ∀ x ∈ u.schedule, x ≠ .reset := fun x hx => hs x (List.mem_of_mem_tail (hschedule ▸ hx))
      refine CompletedFrom.of_quiet ?_ (popTurn_samePlan s) rfl rfl
      cases step_transmitStep hchunk hat hbusy (nextTurn_ne_reset hs) hstep with
      | quiet hsame hout hcount hat' =>
        exact (ih (by rwa [hsame.chunk]) hat' hs' hrun).of_quiet hsame hout hcount
      | taken o p hp hsame hout hcount hat' =>
        exact (ih (by rwa [hsame.chunk]) hat' hs' hrun).of_taken hp hsame hout hcount

/-- Settles O28: the command awaits its DECODE step at place 0 of the plan. -/
theorem completedTransmitOfferedExactlyThePlan : Obligations.CompletedTransmitOfferedExactlyThePlan := by
  intro n s t hparams hfits hp hd hs hrun hidle
  obtain ⟨⟨hchunk, -⟩, -⟩ := (params_wellFormed_iff s).1 hparams
  have hat : s.TransmitAt 0 := (transmitAt_of_decode hp).2 ⟨rfl, hd, hfits⟩
  obtain ⟨outcomes, hlen, hout, hcount, hend⟩ := completedFrom_of_runToIdle hchunk hat hs hrun hidle
  exact ⟨outcomes, (Nat.zero_add _).symm.trans hlen, hout, hcount, hend⟩

end Sys2Proof.Machine

/-! Command control and the output port: what a DECODE step ends in, what a turn does in the phases that give it nothing
to do, and how long an offered packet is held. -/

namespace Sys2Proof.Machine

variable {s t u : State} {i : Instr} {k : AfterEmit} {x : Turn}

/-! Acceptance and NOP -/

theorem busWrite_cmd (s : State) (w : Word) : busWrite s 0x000 32 w = some (submitCommand w s) :=
  busWrite_register (r := .cmd) rfl rfl

theorem submitCommand_of_busy (hbusy : s.eph ≠ .idle) (w : Word) : submitCommand w s = recordError .busy s :=
  if_pos (busy_eq_true_iff.2 hbusy)

/-- Settles O34: offset 0 is CMD, a write to which submits the word. -/
theorem commandIsAcceptedOrRefused : Obligations.CommandIsAcceptedOrRefused := by
  intro s w
  rw [busWrite_cmd]
  by_cases hidle : s.eph = .idle
  · rw [submitCommand_of_idle hidle, if_pos hidle]
    rfl
  · rw [submitCommand_of_busy hidle, if_neg hidle]
    rfl

/-- Settles O33: the word's OP value is NOP's, and the command is `finish()`. -/
theorem nopResult : Obligations.NopResult :=
  ⟨opMeans_of_decodeOp fun w hw => by rw [decodeOp, hw]; rfl, fun _ => rfl⟩

/-! What a DECODE step ends in -/

/-- Settles O6, by the definition of a step and the engine's turn in phase DECODE. -/
theorem stepRunsTheDecodedCommand : Obligations.StepRunsTheDecodedCommand :=
  ⟨fun _ => rfl, nextTurn_cons, fun _ _ => step_command⟩

/-- The commands that take PAY[0..PLEN-1] as their operand (rule R182). -/
abbrev TakesPayload (i : Instr) : Prop :=
  i = .crcPayload ∨ ∃ a b h, i = .pktBuild a b h ∨ i = .pktBuildSend a b h

/-- Such a command with too long a payload ends with LENGTH (rules R132, R182). -/
theorem TakesPayload.exec_of_gt (hi : TakesPayload i) (hplen : 56 < s.plen.toNat) :
    exec i s = .next (raiseError .length s) := by
  obtain rfl | ⟨a, b, h, rfl | rfl⟩ := hi
  · exact execCrcPayload_of_gt hplen
  · exact execPktBuild_of_gt a b h hplen
  · exact execPktBuildSend_of_gt a b h hplen

/-- ERR and ERRCODE stay, and the command `i` has ended with DONE or, if it offers a packet, is still in progress (rules
R163, R166). -/
def EndsOrOffers (i : Instr) (s t : State) : Prop :=
  t.err = s.err ∧ t.errcode = s.errcode ∧
    if offersPacket i = true then t.eph ≠ .idle ∧ t.done = s.done else t.eph = .idle ∧ t.done = true

theorem endsOrOffers_finish (hi : offersPacket i = false) (herr : t.err = s.err) (hcode : t.errcode = s.errcode) :
    EndsOrOffers i s (finish t) := by
  simp [EndsOrOffers, hi, herr, hcode]

theorem endsOrOffers_of_busy (hi : offersPacket i = true) (herr : t.err = s.err) (hcode : t.errcode = s.errcode)
    (hbusy : t.eph ≠ .idle) (hdone : t.done = s.done) : EndsOrOffers i s t := by
  simp [EndsOrOffers, hi, herr, hcode, hbusy, hdone]

/-- With a payload and an image that fit no command's DECODE step fails (rules R182, R183). -/
theorem exec_endsOrOffers (hpay : TakesPayload i → s.plen.toNat ≤ 56)
    (himg : i = .seqTransmit → s.imgLen.toNat ≤ s.imgCap.toNat) :
    ∃ t, exec i s = .next t ∧ EndsOrOffers i s t := by
  cases i with
  | nop | crcInit | crcByte | crcPkt | pktClear | imgClear => exact ⟨_, rfl, endsOrOffers_finish rfl rfl rfl⟩
  | pktSend => exact ⟨_, rfl, endsOrOffers_of_busy rfl rfl rfl nofun rfl⟩
  | crcPayload => exact ⟨_, execCrcPayload_of_le (hpay (.inl rfl)), endsOrOffers_finish rfl rfl rfl⟩
  | pktBuild a b h =>
    have hplen := hpay (.inr ⟨a, b, h, .inl rfl⟩)
    exact ⟨_, execPktBuild_of_le a b h hplen, endsOrOffers_finish rfl rfl rfl⟩
  | pktBuildSend a b h =>
    have hplen := hpay (.inr ⟨a, b, h, .inr rfl⟩)
    exact ⟨_, execPktBuildSend_of_le a b h hplen, endsOrOffers_of_busy rfl rfl rfl nofun rfl⟩
  | seqTransmit => exact ⟨_, execSeqTransmit_of_le (himg rfl), endsOrOffers_of_busy rfl rfl rfl nofun rfl⟩

/-- Settles O35: an error comes from a payload or an image that is too long, and with neither the command does its
work. -/
theorem decodeStepEndsTheCommandOrLeavesItInProgress : Obligations.DecodeStepEndsTheCommandOrLeavesItInProgress := by
  intro i s
  by_cases hpay : TakesPayload i ∧ 56 < s.plen.toNat
  · refine ⟨_, hpay.1.exec_of_gt hpay.2, ?_⟩
    rw [if_pos hpay]
    rfl
  by_cases himg : i = .seqTransmit ∧ s.imgCap.toNat < s.imgLen.toNat
  · have hexec : exec i s = .next (raiseError .config s) := by
      rw [himg.1]
      exact execSeqTransmit_of_gt himg.2
    refine ⟨_, hexec, ?_⟩
    rw [if_neg hpay, if_pos himg]
    rfl
  · obtain ⟨t, hexec, hend⟩ := exec_endsOrOffers (fun hi => Nat.not_lt.1 fun hgt => hpay ⟨hi, hgt⟩)
      (fun hi => Nat.not_lt.1 fun hgt => himg ⟨hi, hgt⟩)
    refine ⟨t, hexec, ?_⟩
    rw [if_neg hpay, if_neg himg]
    exact hend

/-! Turns with something to do and turns with nothing to do -/

/-- In IDLE and in EMIT(k) the engine has no step (rules R166, R170). -/
theorem engineTurn_of_waiting (hp : s.eph = .idle ∨ ∃ k, s.eph = .emit k) : engineTurn s = .next s := by
  obtain hp | ⟨k, hp⟩ := hp <;> rw [engineTurn, hp]

/-- Where no packet is offered there is none to take (rule R168). -/
theorem sinkTurn_of_not_emit (o : SinkOutcome) (hp : ∀ k, s.eph ≠ .emit k) : sinkTurn o s = s := by
  unfold sinkTurn
  split
  · exact absurd ‹_› (hp _)
  all_goals rfl

theorem sinkTurn_emit (o : SinkOutcome) (hp : s.eph = .emit k) : sinkTurn o s = emission k o s := by
  rw [sinkTurn, hp]

/-- Settles O36: the step is the turn of the agent, which leaves the state as it is. -/
theorem turnsWithNothingEnabledDoNothing : Obligations.TurnsWithNothingEnabledDoNothing := by
  refine fun s => ⟨fun ht hp => ?_, fun o ht hp => ?_⟩
  · rw [step, ht]
    exact engineTurn_of_waiting (s := s.popTurn) hp
  · rw [step, ht]
    exact congrArg _ (sinkTurn_of_not_emit (s := s.popTurn) o hp)

/-- Settles O37: the sink's turn is the emission, for END and for MORE. -/
theorem emissionStep : Obligations.EmissionStep := by
  intro s o k hp
  rw [takeTurn, sinkTurn_emit o hp]
  cases k <;> rfl

/-! A stall -/

/-- The engine is in the phase it was in, with the same packet in PKT for the same command, and nothing more has been
emitted (rule R170). -/
structure SameOffer (s t : State) : Prop where
  eph : t.eph = s.eph
  pkt : t.pkt = s.pkt
  out : t.out = s.out
  pktCount : t.pktCount = s.pktCount
  latch : t.latch = s.latch

theorem SameOffer.trans (h : SameOffer s t) (h' : SameOffer t u) : SameOffer s u :=
  ⟨h'.eph.trans h.eph, h'.pkt.trans h.pkt, h'.out.trans h.out, h'.pktCount.trans h.pktCount, h'.latch.trans h.latch⟩

theorem popTurn_sameOffer (s : State) : SameOffer s s.popTurn := ⟨rfl, rfl, rfl, rfl, rfl⟩

/-- While a packet is offered the engine waits, and the host cannot change what is offered (rules R59, R170). -/
theorem turnEffect_sameOffer (hp : s.eph = .emit k) (hx : x = .host ∨ x = .engine) (he : TurnEffect s x t) :
    SameOffer s t := by
  cases he with
  | host _ he =>
    obtain ⟨hout, hcount, -, -, hpkt, -⟩ := hostEffect_frame he
    obtain ⟨heph, hlatch, -⟩ := hostEffect_busy_frame he (by simp [hp])
    exact ⟨heph, hpkt, hout, hcount, hlatch⟩
  | waiting => exact ⟨rfl, rfl, rfl, rfl, rfl⟩
  | command _ _ hdecode => exact nomatch hp.symm.trans hdecode
  | illegal _ hdecode => exact nomatch hp.symm.trans hdecode
  | seqSet hseq => exact nomatch hp.symm.trans hseq
  | seqSave hseq => exact nomatch hp.symm.trans hseq
  | emitted | reset => simp at hx

/-- With only the host and the engine in the schedule the turn is one of theirs, also when the schedule has run out
(rule R70; log 5). -/
theorem nextTurn_host_or_engine (hs : ∀ x ∈ s.schedule, x = .host ∨ x = .engine) :
    s.nextTurn = .host ∨ s.nextTurn = .engine := by
  rw [State.nextTurn]
  split
  · exact hs _ (by simp [*])
  · split
    · exact .inr rfl
    · exact .inl rfl

/-- By induction on the number of steps: every step keeps the offer. -/
theorem run_sameOffer {n : Nat} (hp : s.eph = .emit k) (hs : ∀ x ∈ s.schedule, x = .host ∨ x = .engine)
    (hrun : run n s = .next t) : SameOffer s t := by
  induction n generalizing s with
  | zero =>
    cases hrun
    exact ⟨rfl, rfl, rfl, rfl, rfl⟩
  | succ n ih =>
    obtain ⟨u, hstep, hrun⟩ := run_succ_cases hrun
    have he := step_cases hstep
    have hsame : SameOffer s u :=
      (popTurn_sameOffer s).trans (turnEffect_sameOffer hp (nextTurn_host_or_engine hs) he)
    have hschedule : u.schedule = s.schedule.tail := turnEffect_schedule he
    exact hsame.trans (ih (hsame.eph.trans hp) (fun x hx => hs x (List.mem_of_mem_tail (hschedule ▸ hx))) hrun)

/-- Settles O39: the offer is kept over a run, and a command word meets a busy engine. -/
theorem stalledEmissionHolds : Obligations.StalledEmissionHolds := by
  refine ⟨fun n s t k hp hs hrun => ?_, fun s k w hp => ?_⟩
  · obtain ⟨heph, hpkt, hout, hcount, hlatch⟩ := run_sameOffer hp hs hrun
    have hemit := heph.trans hp
    exact ⟨hemit, busy_eq_true_iff.2 (by simp [hemit]), hpkt, hout, hcount, hlatch⟩
  · rw [busWrite_cmd, submitCommand_of_busy (by simp [hp])]
    rfl

end Sys2Proof.Machine

/-! Exceptions: the refusal of operand writes while BUSY, SEQ_TRANSMIT's CONFIG error, and the acknowledgement of
interrupts. -/

namespace Sys2Proof.Machine

variable {s : State} {cap off width : Nat}

/-! The refusal of operand writes while BUSY -/

/-- What a write is refused to while BUSY: the operand registers and CMD, PAY and IMG (rules R59, R161). -/
def BusTarget.IsOperand : BusTarget → Prop
  | .register r => r ∈ [.cmd, .crc, .hdr, .plen, .imgLen, .seqCodes]
  | .buffer (.pay _) => True
  | .buffer (.pkt _) => False
  | .buffer (.img _) => True

theorem operandWrite_of_busy (hbusy : s.eph ≠ .idle) (store : State) : operandWrite store s = recordError .busy s :=
  if_pos (busy_eq_true_iff.2 hbusy)

/-- Whatever the operand, the write records the BUSY error instead of storing (rule R184). -/
theorem writeTarget_of_busy {b : BusTarget} (hbusy : s.eph ≠ .idle) (hb : b.IsOperand) (width : Nat) (v : Word) :
    writeTarget width v s b = recordError .busy s := by
  have refused := operandWrite_of_busy hbusy
  match b, hb with
  | .register r, hr =>
    cases r with
    | cmd => exact submitCommand_of_busy hbusy v
    | crc | hdr | plen | imgLen | seqCodes => exact refused _
    | status | ien | seqAddr | pktCount | chunk | imgCap => simp [BusTarget.IsOperand] at hr
  | .buffer (.pay _), _ => exact refused _
  | .buffer (.img _), _ => exact refused _

/-- Registers take 32-bit accesses only (rules R53, R54). -/
theorem Admitted.word_of_lt (h : Admitted cap off width) (hlt : off < 0x030) : width = 32 ∧ off % 4 = 0 := by
  unfold Admitted InBufferWindow at h
  omega

/-- An admitted access is a byte or an aligned word (rules R53, R54). -/
theorem Admitted.byte_or_word (h : Admitted cap off width) : width = 8 ∨ width = 32 ∧ off % 4 = 0 :=
  h.imp And.left fun ⟨hw, ha, _⟩ => ⟨hw, ha⟩

/-- From 0x01000000 on the map holds IMG and nothing else (rule R52). -/
theorem Admitted.lt_imgEnd (h : Admitted cap off width) (hge : 0x01000000 ≤ off) : off < 0x01000000 + cap := by
  unfold Admitted InBufferWindow at h
  omega

/-- The offsets of CMD and of the registers from CRC to SEQ_CODES (rule R52). -/
theorem registerAt_operand (ha : off % 4 = 0) (hoff : off = 0x000 ∨ 0x00C ≤ off ∧ off < 0x020) :
    ∃ r, registerAt off = some r ∧ (BusTarget.register r).IsOperand := by
  obtain rfl | rfl | rfl | rfl | rfl | rfl :
      off = 0x000 ∨ off = 0x00C ∨ off = 0x010 ∨ off = 0x014 ∨ off = 0x018 ∨ off = 0x01C := by omega
  all_goals exact ⟨_, rfl, by simp [BusTarget.IsOperand]⟩

/-- The operand places of the map are the offsets at which the bus reaches an operand (rules R52, R59). -/
theorem busTarget_of_operandPlace {off : Word} (h : OperandPlace s.imgCap.toNat off.toNat width) :
    ∃ b, busTarget s off width = some b ∧ b.IsOperand := by
  obtain ⟨hadm, hplace⟩ := h
  have register (hoff : off.toNat = 0x000 ∨ 0x00C ≤ off.toNat ∧ off.toNat < 0x020) :
      ∃ b, busTarget s off width = some b ∧ b.IsOperand := by
    obtain ⟨rfl, ha⟩ := hadm.word_of_lt (by omega)
    obtain ⟨r, hr, hoperand⟩ := registerAt_operand ha hoff
    exact ⟨_, busTarget_register hr ha, hoperand⟩
  obtain hcmd | hreg | ⟨hlo, hhi⟩ | himg := hplace
  · exact register (.inl hcmd)
  · exact register (.inr hreg)
  · exact ⟨_, busTarget_buffer (bufferAt_pay hlo hhi) hadm.byte_or_word, trivial⟩
  · obtain ⟨a, ha⟩ := Nat.exists_eq_add_of_le himg
    have hlt := hadm.lt_imgEnd himg
    have hb : bufferAt s.imgCap.toNat off.toNat = some (.img a) := by
      rw [ha]
      exact bufferAt_img (by omega)
    exact ⟨_, busTarget_buffer hb hadm.byte_or_word, trivial⟩

/-- Settles O47: the bus reaches an operand, to which a busy block refuses the write. -/
theorem operandWritesAreRefusedWhileBusy : Obligations.OperandWritesAreRefusedWhileBusy := by
  intro s off width v hbusy hplace
  obtain ⟨b, hb, hoperand⟩ := busTarget_of_operandPlace hplace
  rw [busWrite, hb, Option.map_some, writeTarget_of_busy hbusy hoperand]
  rfl

/-! SEQ_TRANSMIT's CONFIG error -/

/-- Settles O24: the word's OP value is SEQ_TRANSMIT's, and IMG_LEN is within the capacity or above it. -/
theorem seqTransmitStartsOrReportsConfig : Obligations.SeqTransmitStartsOrReportsConfig :=
  ⟨opMeans_of_decodeOp fun w hw => by rw [decodeOp, hw]; rfl, fun _ => execSeqTransmit_of_le,
    fun _ => execSeqTransmit_of_gt⟩

/-! The acknowledgement of interrupts -/

theorem busWrite_status (s : State) (v : Word) : busWrite s 0x004 32 v = some (writeStatus v s) :=
  busWrite_register (r := .status) rfl rfl

/-- IRQ is 0 when each of the three sources is not pending or not enabled (rules R39, R188). -/
theorem irq_eq_false_iff : s.irq = false ↔
    (s.done && s.ien.done) = false ∧ (s.err && s.ien.err) = false ∧ (s.txdrop && s.ien.txdrop) = false := by
  rw [State.irq, Bool.or_eq_false_iff, Bool.or_eq_false_iff, and_assoc]

/-- A source whose bit is written 1, or that was not an enabled pending one, is none after the write (rule R190). -/
theorem source_quiet_after_clear {pending clear enabled : Bool} (h : clear = true ∨ (pending && enabled) = false) :
    (pending && !clear && enabled) = false := by
  obtain rfl | h := h
  · simp
  · rw [Bool.and_right_comm, h, Bool.false_and]

/-- A STATUS write drops IRQ when it acknowledges every enabled pending source (rule R190). -/
theorem writeStatus_irq {v : Word} (hdone : v.getLsbD 1 = true ∨ (s.done && s.ien.done) = false)
    (herr : v.getLsbD 2 = true ∨ (s.err && s.ien.err) = false)
    (htxdrop : v.getLsbD 3 = true ∨ (s.txdrop && s.ien.txdrop) = false) : (writeStatus v s).irq = false :=
  irq_eq_false_iff.2
    ⟨source_quiet_after_clear hdone, source_quiet_after_clear herr, source_quiet_after_clear htxdrop⟩

/-- Acceptance clears DONE, so only ERR and TXDROP can keep IRQ at 1 (rules R161, R190). -/
theorem acceptCommand_irq (w : Word) (herr : (s.err && s.ien.err) = false)
    (htxdrop : (s.txdrop && s.ien.txdrop) = false) : (acceptCommand w s).irq = false :=
  irq_eq_false_iff.2 ⟨rfl, herr, htxdrop⟩

/-- Settles O51: each STATUS write acknowledges one source, and the other two are quiet; acceptance clears DONE. -/
theorem acknowledgementDropsIrq : Obligations.AcknowledgementDropsIrq := by
  refine fun s => ⟨fun herr htxdrop => ⟨_, busWrite_status s _, ?_⟩,
    fun hdone htxdrop => ⟨_, busWrite_status s _, ?_⟩, fun hdone herr => ⟨_, busWrite_status s _, ?_⟩,
    fun w hidle herr htxdrop => ⟨acceptCommand w s, ?_, ?_⟩⟩
  · exact writeStatus_irq (.inl rfl) (.inr herr) (.inr htxdrop)
  · exact writeStatus_irq (.inr hdone) (.inl rfl) (.inr htxdrop)
  · exact writeStatus_irq (.inr hdone) (.inr herr) (.inl rfl)
  · rw [busWrite_cmd, submitCommand_of_idle hidle]
  · exact acceptCommand_irq w herr htxdrop

end Sys2Proof.Machine
